-- ==== Sys2Proof/Word.lean ====
section
/-! DEFINITION. The widths of ACC-CODEC's data (spec 00_scope.md R12, R14, R15). -/

namespace Sys2Proof

/-- A 32-bit pattern: an operand register, a filter-state register, a command word (R12, R15). -/
abbrev Word := BitVec 32

/-- A 16-bit pattern: an immediate or a raw sample (R12). -/
abbrev Half := BitVec 16

/-- An 8-bit pattern: a device register value or a device register address (R12). -/
abbrev Byte := BitVec 8

end Sys2Proof
end

