-- ==== Sys2Proof/Config.lean ====
section
/-! DEFINITION. What the platform fixes (spec 00_scope.md R12, R13). -/

namespace Sys2Proof.Config

/-- HOST_BASE, the host address of byte offset 0x00 of the window: an open parameter of the platform (R13,
20_memory.md R51). It has no body, so nothing can be proved about its value and every statement holds for every
base. Log 5. The spec does not say that it is a multiple of 4, and the model does not require it (DESIGN CHOICE, log 16). -/
opaque hostBase : Nat

/-- The number of operand registers (R12, 10_state.md R21). -/
abbrev numRegs : Nat := 8

/-- The number of axes (R12, 10_state.md R26). -/
abbrev numAxes : Nat := 3

end Sys2Proof.Config
end

