-- ==== Sys2Proof/Syntax.lean ====
section
/-! DEFINITION. The commands of ACC-CODEC: one constructor of `Instr` per row of the opcode map (spec 30_encoding.md
R86), its operands in the order of the assembler syntax (R91). -/

namespace Sys2Proof

/-- The number of an operand register, a 3-bit field (30_encoding.md R81, 10_state.md R21). -/
abbrev RegIdx := BitVec 3

/-- The 2-bit AX field; the value 3 selects nothing (30_encoding.md R81, 10_state.md R28). -/
abbrev AxisField := BitVec 2

/-- An axis of the filter state (10_state.md R28). -/
inductive Axis where
  | x
  | y
  | z
deriving DecidableEq, Repr

/-- The mnemonics of the opcode map (30_encoding.md R86). -/
inductive Mnemonic where
  | nop | li | lih | chkid
  | encrng | decrng | encdr | decdr | encwk | decwk
  | setrng | setdr | setfr | setst | cpwr | setms | merge
  | ldraw | conv
  | seed | smooth | rdfilt | clrfilt | sample
deriving DecidableEq, Repr

/-- A command (30_encoding.md R86, R91). -/
inductive Instr where
  | nop
  | li (rd : RegIdx) (imm : Half)
  | lih (rd : RegIdx) (imm : Half)
  | chkid (rs1 : RegIdx)
  | encrng (rd rs1 : RegIdx)
  | decrng (rd rs1 : RegIdx)
  | encdr (rd rs1 : RegIdx)
  | decdr (rd rs1 : RegIdx)
  | encwk (rd rs1 : RegIdx)
  | decwk (rd rs1 : RegIdx)
  | setrng (rd rs1 rs2 : RegIdx)
  | setdr (rd rs1 rs2 : RegIdx)
  | setfr (rd rs1 : RegIdx) (on : Bool)
  | setst (rd rs1 : RegIdx) (on : Bool)
  | cpwr (rd rs1 rs2 : RegIdx) (enable : Bool)
  | setms (rd rs1 : RegIdx)
  | merge (rd rs1 rs2 : RegIdx) (mask : Byte)
  | ldraw (rd rs1 rs2 : RegIdx)
  | conv (rd rs1 : RegIdx)
  | seed (ax : AxisField) (rs1 : RegIdx)
  | smooth (rd rs1 : RegIdx) (ax : AxisField) (weight : Half)
  | rdfilt (rd : RegIdx) (ax : AxisField)
  | clrfilt (ax : AxisField)
  | sample (rd rs1 : RegIdx) (ax : AxisField) (weight : Half)
deriving DecidableEq, Repr

/-- The mnemonic of a command (30_encoding.md R86). -/
def Instr.mnemonic : Instr → Mnemonic
  | .nop => .nop
  | .li _ _ => .li
  | .lih _ _ => .lih
  | .chkid _ => .chkid
  | .encrng _ _ => .encrng
  | .decrng _ _ => .decrng
  | .encdr _ _ => .encdr
  | .decdr _ _ => .decdr
  | .encwk _ _ => .encwk
  | .decwk _ _ => .decwk
  | .setrng _ _ _ => .setrng
  | .setdr _ _ _ => .setdr
  | .setfr _ _ _ => .setfr
  | .setst _ _ _ => .setst
  | .cpwr _ _ _ _ => .cpwr
  | .setms _ _ => .setms
  | .merge _ _ _ _ => .merge
  | .ldraw _ _ _ => .ldraw
  | .conv _ _ => .conv
  | .seed _ _ => .seed
  | .smooth _ _ _ _ => .smooth
  | .rdfilt _ _ => .rdfilt
  | .clrfilt _ => .clrfilt
  | .sample _ _ _ _ => .sample

/-- The AX field of a command that uses it; `none` where the opcode does not use AX (30_encoding.md R85, R86). -/
def Instr.axisField? : Instr → Option AxisField
  | .seed ax _ => some ax
  | .smooth _ _ ax _ => some ax
  | .rdfilt _ ax => some ax
  | .clrfilt ax => some ax
  | .sample _ _ ax _ => some ax
  | .nop => none
  | .li _ _ => none
  | .lih _ _ => none
  | .chkid _ => none
  | .encrng _ _ => none
  | .decrng _ _ => none
  | .encdr _ _ => none
  | .decdr _ _ => none
  | .encwk _ _ => none
  | .decwk _ _ => none
  | .setrng _ _ _ => none
  | .setdr _ _ _ => none
  | .setfr _ _ _ => none
  | .setst _ _ _ => none
  | .cpwr _ _ _ _ => none
  | .setms _ _ => none
  | .merge _ _ _ _ => none
  | .ldraw _ _ _ => none
  | .conv _ _ => none

end Sys2Proof
end

