-- ==== Sys2Proof/WellFormed.lean ====
section
/-! DEFINITION. The one check the types of `Instr` do not make: a command that uses AX names one of the three axes
(spec 30_encoding.md R85). -/

namespace Sys2Proof

/-- AX = 3 selects nothing (10_state.md R28, 30_encoding.md R85). -/
def axisFieldOk (ax : AxisField) : Bool := ax != 3#2

/-- A well-formed command: the AX field of an AX-using opcode is not 3 (30_encoding.md R85). -/
def wellFormed (i : Instr) : Bool := i.axisField?.all axisFieldOk

/-- `wellFormed` as a proposition. -/
abbrev WellFormed (i : Instr) : Prop := wellFormed i = true

end Sys2Proof
end

