-- ==== Sys2Proof/Decode.lean ====
section
/-! DEFINITION. The command decoder (spec 30_encoding.md R94), total on every 32-bit word and rejecting by name, and
after it the encoder (R95). -/

namespace Sys2Proof

/-! ### The fields of a command word (R81) -/

/-- OPC, bits 31:27. -/
def opcField (w : Word) : BitVec 5 := w.extractLsb' 27 5
/-- RD, bits 26:24. -/
def rdField (w : Word) : RegIdx := w.extractLsb' 24 3
/-- RS1, bits 23:21. -/
def rs1Field (w : Word) : RegIdx := w.extractLsb' 21 3
/-- RS2, bits 20:18. -/
def rs2Field (w : Word) : RegIdx := w.extractLsb' 18 3
/-- AX, bits 17:16. -/
def axField (w : Word) : AxisField := w.extractLsb' 16 2
/-- IMM, bits 15:0. -/
def immField (w : Word) : Half := w.extractLsb' 0 16
/-- IMM1, the single bit IMM[0] (R82, R83). -/
def imm1Field (w : Word) : Bool := w.getLsbD 0
/-- IMM8, bits 7:0 of IMM (R82, R83). -/
def imm8Field (w : Word) : Byte := w.extractLsb' 0 8

/-! ### The opcode map (R86) -/

/-- A row of the opcode map: a word has the opcode and all its unused bits 0 exactly when
`w &&& mask = value` (R86, where `value` is called "match"). -/
structure OpcodeRow where
  opc : BitVec 5
  mnemonic : Mnemonic
  value : Word
  mask : Word
  usesAx : Bool
deriving DecidableEq, Repr

/-- The opcode map, row by row as R86 has it. OPC 0x18 to 0x1F have no row (R87). -/
def opcodeTable : List OpcodeRow :=
  [ ⟨0x00#5, .nop,     0x00000000#32, 0xFFFFFFFF#32, false⟩,
    ⟨0x01#5, .li,      0x08000000#32, 0xF8FF0000#32, false⟩,
    ⟨0x02#5, .lih,     0x10000000#32, 0xF8FF0000#32, false⟩,
    ⟨0x03#5, .chkid,   0x18000000#32, 0xFF1FFFFF#32, false⟩,
    ⟨0x04#5, .encrng,  0x20000000#32, 0xF81FFFFF#32, false⟩,
    ⟨0x05#5, .decrng,  0x28000000#32, 0xF81FFFFF#32, false⟩,
    ⟨0x06#5, .encdr,   0x30000000#32, 0xF81FFFFF#32, false⟩,
    ⟨0x07#5, .decdr,   0x38000000#32, 0xF81FFFFF#32, false⟩,
    ⟨0x08#5, .encwk,   0x40000000#32, 0xF81FFFFF#32, false⟩,
    ⟨0x09#5, .decwk,   0x48000000#32, 0xF81FFFFF#32, false⟩,
    ⟨0x0A#5, .setrng,  0x50000000#32, 0xF803FFFF#32, false⟩,
    ⟨0x0B#5, .setdr,   0x58000000#32, 0xF803FFFF#32, false⟩,
    ⟨0x0C#5, .setfr,   0x60000000#32, 0xF81FFFFE#32, false⟩,
    ⟨0x0D#5, .setst,   0x68000000#32, 0xF81FFFFE#32, false⟩,
    ⟨0x0E#5, .cpwr,    0x70000000#32, 0xF803FFFE#32, false⟩,
    ⟨0x0F#5, .setms,   0x78000000#32, 0xF81FFFFF#32, false⟩,
    ⟨0x10#5, .merge,   0x80000000#32, 0xF803FF00#32, false⟩,
    ⟨0x11#5, .ldraw,   0x88000000#32, 0xF803FFFF#32, false⟩,
    ⟨0x12#5, .conv,    0x90000000#32, 0xF81FFFFF#32, false⟩,
    ⟨0x13#5, .seed,    0x98000000#32, 0xFF1CFFFF#32, true⟩,
    ⟨0x14#5, .smooth,  0xA0000000#32, 0xF81C0000#32, true⟩,
    ⟨0x15#5, .rdfilt,  0xA8000000#32, 0xF8FCFFFF#32, true⟩,
    ⟨0x16#5, .clrfilt, 0xB0000000#32, 0xFFFCFFFF#32, true⟩,
    ⟨0x17#5, .sample,  0xB8000000#32, 0xF81C0000#32, true⟩ ]

/-- The row of the opcode map with this OPC, if there is one (R87, R94). -/
def rowOf (opc : BitVec 5) : Option OpcodeRow := opcodeTable.find? (fun r => r.opc == opc)

/-! ### The decoder (R94) -/

/-- Why a word does not decode (R88). Each of them makes the command fail with ILLEGAL_COMMAND. -/
inductive DecodeError where
  /-- OPC is one of 0x18 to 0x1F (R87). -/
  | reservedOpcode
  /-- A bit the opcode does not use is 1 (R82). -/
  | unusedBitSet
  /-- AX = 3 in an opcode that uses AX (R85). -/
  | axisThree
deriving DecidableEq, Repr

/-- The command with this mnemonic and the operand fields of `w` (R94, last line). -/
def buildInstr (m : Mnemonic) (w : Word) : Instr :=
  match m with
  | .nop => .nop
  | .li => .li (rdField w) (immField w)
  | .lih => .lih (rdField w) (immField w)
  | .chkid => .chkid (rs1Field w)
  | .encrng => .encrng (rdField w) (rs1Field w)
  | .decrng => .decrng (rdField w) (rs1Field w)
  | .encdr => .encdr (rdField w) (rs1Field w)
  | .decdr => .decdr (rdField w) (rs1Field w)
  | .encwk => .encwk (rdField w) (rs1Field w)
  | .decwk => .decwk (rdField w) (rs1Field w)
  | .setrng => .setrng (rdField w) (rs1Field w) (rs2Field w)
  | .setdr => .setdr (rdField w) (rs1Field w) (rs2Field w)
  | .setfr => .setfr (rdField w) (rs1Field w) (imm1Field w)
  | .setst => .setst (rdField w) (rs1Field w) (imm1Field w)
  | .cpwr => .cpwr (rdField w) (rs1Field w) (rs2Field w) (imm1Field w)
  | .setms => .setms (rdField w) (rs1Field w)
  | .merge => .merge (rdField w) (rs1Field w) (rs2Field w) (imm8Field w)
  | .ldraw => .ldraw (rdField w) (rs1Field w) (rs2Field w)
  | .conv => .conv (rdField w) (rs1Field w)
  | .seed => .seed (axField w) (rs1Field w)
  | .smooth => .smooth (rdField w) (rs1Field w) (axField w) (immField w)
  | .rdfilt => .rdfilt (rdField w) (axField w)
  | .clrfilt => .clrfilt (axField w)
  | .sample => .sample (rdField w) (rs1Field w) (axField w) (immField w)

/-- The decoder, check by check as R94 has it. -/
def decode (w : Word) : Except DecodeError Instr :=
  match rowOf (opcField w) with
  | none => .error .reservedOpcode
  | some r =>
    if w &&& r.mask ≠ r.value then .error .unusedBitSet
    else if r.usesAx = true ∧ axField w = 3#2 then .error .axisThree
    else .ok (buildInstr r.mnemonic w)

/-- The axis an AX field selects; 3 selects nothing (10_state.md R28). -/
def axisOf (ax : AxisField) : Option Axis :=
  if ax = 0#2 then some .x
  else if ax = 1#2 then some .y
  else if ax = 2#2 then some .z
  else none

/-! ### The encoder (R95) -/

/-- A command word from its six fields (R81). -/
def packWord (opc : BitVec 5) (rd rs1 rs2 : RegIdx) (ax : AxisField) (imm : Half) : Word :=
  opc ++ (rd ++ (rs1 ++ (rs2 ++ (ax ++ imm))))

/-- IMM of an opcode that uses IMM1 only: bits 15:1 are 0 (R82). -/
def imm1Bits (b : Bool) : Half := (BitVec.ofBool b).setWidth 16

/-- IMM of an opcode that uses IMM8 only: bits 15:8 are 0 (R82). -/
def imm8Bits (m : Byte) : Half := m.setWidth 16

/-- The word of a command, every unused field 0 (R95, opcodes of R86). -/
def encode : Instr → Word
  | .nop => packWord 0x00#5 0 0 0 0 0
  | .li rd imm => packWord 0x01#5 rd 0 0 0 imm
  | .lih rd imm => packWord 0x02#5 rd 0 0 0 imm
  | .chkid rs1 => packWord 0x03#5 0 rs1 0 0 0
  | .encrng rd rs1 => packWord 0x04#5 rd rs1 0 0 0
  | .decrng rd rs1 => packWord 0x05#5 rd rs1 0 0 0
  | .encdr rd rs1 => packWord 0x06#5 rd rs1 0 0 0
  | .decdr rd rs1 => packWord 0x07#5 rd rs1 0 0 0
  | .encwk rd rs1 => packWord 0x08#5 rd rs1 0 0 0
  | .decwk rd rs1 => packWord 0x09#5 rd rs1 0 0 0
  | .setrng rd rs1 rs2 => packWord 0x0A#5 rd rs1 rs2 0 0
  | .setdr rd rs1 rs2 => packWord 0x0B#5 rd rs1 rs2 0 0
  | .setfr rd rs1 on => packWord 0x0C#5 rd rs1 0 0 (imm1Bits on)
  | .setst rd rs1 on => packWord 0x0D#5 rd rs1 0 0 (imm1Bits on)
  | .cpwr rd rs1 rs2 enable => packWord 0x0E#5 rd rs1 rs2 0 (imm1Bits enable)
  | .setms rd rs1 => packWord 0x0F#5 rd rs1 0 0 0
  | .merge rd rs1 rs2 mask => packWord 0x10#5 rd rs1 rs2 0 (imm8Bits mask)
  | .ldraw rd rs1 rs2 => packWord 0x11#5 rd rs1 rs2 0 0
  | .conv rd rs1 => packWord 0x12#5 rd rs1 0 0 0
  | .seed ax rs1 => packWord 0x13#5 0 rs1 0 ax 0
  | .smooth rd rs1 ax weight => packWord 0x14#5 rd rs1 0 ax weight
  | .rdfilt rd ax => packWord 0x15#5 rd 0 0 ax 0
  | .clrfilt ax => packWord 0x16#5 0 0 0 ax 0
  | .sample rd rs1 ax weight => packWord 0x17#5 rd rs1 0 ax weight

/-- What the decoder reads from an instruction whose bits are `w`, numbered as the opcode table numbers them. A command
is one 32-bit word and host data bit i is bit i of CMD (R90, 20_memory.md R53), so the layout is the number itself. -/
def decodeTableWord (nbits w : Nat) : Option Instr := (decode (BitVec.ofNat 32 (w % 2 ^ nbits))).toOption

end Sys2Proof
end

