-- ==== Sys2Proof/Machine/State.lean ====
section
/-! DEFINITION. The state of ACC-CODEC (spec 10_state.md R20), what the host sends it (70_reset_and_hazards.md R285), and
the state after reset (10_state.md R38). -/

namespace Sys2Proof.Machine

/-- What a host access does: a read, or a write of a 32-bit value (20_memory.md R52). -/
inductive AccessKind where
  | read
  | write (data : Word)
deriving DecidableEq, Repr

/-- One host access. `offset` is its host address less HOST_BASE, so that the step depends on no base (log 5); `bytes` is
its width. The window defines it only when it is an aligned 32-bit access inside the window (20_memory.md R56), aligned by
its offset (log 16); the data of a write of another width is never looked at (log 11). -/
structure HostAccess where
  offset : Int
  bytes : Nat
  kind : AccessKind
deriving DecidableEq, Repr

/-- What can happen to the block from outside: a host access (70_reset_and_hazards.md R285) or the platform's reset
(R260, log 7). -/
inductive HostEvent where
  | access (a : HostAccess)
  | reset
deriving DecidableEq, Repr

/-- The errors a command can end in (60_exceptions.md R221). They are results recorded in STATUS, no faults (R220,
R232). -/
inductive CmdError where
  /-- The word does not decode (R222). -/
  | illegalCommand
  /-- A semantic value outside its domain (R223). -/
  | invalidConfigurationValue
  /-- The identification byte is not 0xE5 (R224). -/
  | identityMismatch
  /-- The axis's filter state is undefined (R225). -/
  | filterNotSeeded
deriving DecidableEq, Repr

/-- The state. The first five fields are the tuple of 10_state.md R20, all the state the block has (R37); the last two
are the model's own and hold the host's side (log 1, log 3). -/
structure State where
  /-- R0..R7 (R21). -/
  regs : Vector Word Config.numRegs
  /-- FILT0..FILT2 (R26). -/
  filt : Vector Word Config.numAxes
  /-- FV0..FV2 (R27). -/
  fv : Vector Bool Config.numAxes
  /-- STATUS.ERR (R29, R30). -/
  err : BitVec 3
  /-- STATUS.LASTF (R29, R31). -/
  lastf : Bool
  /-- The host events still to come, oldest first (20_memory.md R71; the model's own field, log 1). -/
  hostIn : List HostEvent
  /-- The data host reads have returned, oldest first (the model's own field, log 3). -/
  hostOut : List Word
deriving DecidableEq, Repr

/-- Faults: none. An error of ACC-CODEC changes STATUS and the block goes on (60_exceptions.md R220, R232), so nothing in
the spec stops the machine and this type has no constructor (log 8; safe: there is nothing the model stops on). -/
inductive Fault where
deriving DecidableEq, Repr

/-- Refusals. -/
inductive Refusal where
  /-- An instruction with no meaning yet, raised by `exec`'s arms only; no arm raises it now. Safe: the model stops where
  the hardware goes on. -/
  | notModelled (mnemonic : String)
  /-- A host access that is not an aligned 32-bit access inside the window, raised by serving a host access. Safe: the
  spec leaves the bus's response to the platform (HOST_BAD_ACCESS) and asks a model to give the access no step
  (20_memory.md R56, log 6). -/
  | hostBadAccess
deriving DecidableEq, Repr

/-- The machine right after reset (10_state.md R38); no host event is pending and no read has been answered (log 1,
log 3). -/
def State.reset : State where
  regs := Vector.replicate Config.numRegs 0#32
  filt := Vector.replicate Config.numAxes 0#32
  fv := Vector.replicate Config.numAxes false
  err := 0#3
  lastf := false
  hostIn := []
  hostOut := []

end Sys2Proof.Machine
end

