-- ==== Sys2Proof/Machine/Flags.lean ====
section
/-! DEFINITION. STATUS: error codes, the update every command makes, the host's clear, and the word a read gives
(spec 10_state.md R29 to R33, 60_exceptions.md R221, R231). -/

namespace Sys2Proof.Machine

/-- The code of an error in STATUS.ERR (60_exceptions.md R221). -/
def CmdError.code : CmdError → BitVec 3
  | .illegalCommand => 1#3
  | .invalidConfigurationValue => 2#3
  | .identityMismatch => 3#3
  | .filterNotSeeded => 4#3

/-- STATUS.ERR after a failure with this code: the first code since a clear stays (R231, 10_state.md R30). -/
def recordError (old code : BitVec 3) : BitVec 3 := if old = 0#3 then code else old

/-- STATUS after a failed command (R231); nothing else changes (R230). -/
def State.fail (s : State) (e : CmdError) : State :=
  { s with err := recordError s.err e.code, lastf := true }

/-- STATUS after a command that succeeded (R231). -/
def State.succeed (s : State) : State := { s with lastf := false }

/-- A host write to STATUS (10_state.md R32). -/
def State.clearStatus (s : State) : State := { s with err := 0#3, lastf := false }

/-- The STATUS word from its parts: ERR, LASTF, FV0, FV1, FV2 from bit 0 up, bits 31:7 zero (10_state.md R29). -/
def packStatus (err : BitVec 3) (lastf fv0 fv1 fv2 : Bool) : Word :=
  0#25 ++ (BitVec.ofBool fv2 ++ (BitVec.ofBool fv1 ++ (BitVec.ofBool fv0 ++ (BitVec.ofBool lastf ++ err))))

end Sys2Proof.Machine
end

