-- ==== Sys2Proof/Machine/Ops.lean ====
section
/-! DEFINITION. The named operations on the block's registers and the one way a command ends (spec 10_state.md,
60_exceptions.md section 3). -/

namespace Sys2Proof.Machine

/-! ### Operand registers (10_state.md R21, R22) -/

/-- `x[i]`, the pattern in operand register Ri. -/
def State.reg (s : State) (r : RegIdx) : Word := s.regs[r.toNat]'r.isLt

/-- `x[i] <- v`. Every register is ordinary: none is hardwired (R21). -/
def State.setReg (s : State) (r : RegIdx) (v : Word) : State := { s with regs := s.regs.set r.toNat v r.isLt }

/-! ### Filter state (10_state.md R26 to R28) -/

/-- X is axis 0, Y axis 1, Z axis 2 (R28). -/
def axisIndex : Axis → Fin Config.numAxes
  | .x => 0
  | .y => 1
  | .z => 2

/-- `FILT[a]`. -/
def State.filtOf (s : State) (a : Axis) : Word := s.filt[axisIndex a]

/-- `FV[a]`. -/
def State.fvOf (s : State) (a : Axis) : Bool := s.fv[axisIndex a]

/-- `FILT[a] <- v`. -/
def State.setFilt (s : State) (a : Axis) (v : Word) : State :=
  { s with filt := s.filt.set (axisIndex a) v (axisIndex a).isLt }

/-- `FV[a] <- b`. -/
def State.setFv (s : State) (a : Axis) (b : Bool) : State :=
  { s with fv := s.fv.set (axisIndex a) b (axisIndex a).isLt }

/-- The filter state of one axis made defined: by SEED (43_filter.md R190) and by a host write to FILTa, which has the same
effect (20_memory.md R55). -/
def State.seedAxis (s : State) (a : Axis) (v : Word) : State := (s.setFilt a v).setFv a true

/-- The filter state of one axis discarded (43_filter.md R198). -/
def State.clearAxis (s : State) (a : Axis) : State := (s.setFilt a 0#32).setFv a false

/-! ### STATUS and reset -/

/-- The word a read of STATUS gives; its bits 6:4 mirror FV0..FV2 (10_state.md R29, R33). -/
def State.statusWord (s : State) : Word := packStatus s.err s.lastf (s.fvOf .x) (s.fvOf .y) (s.fvOf .z)

/-- The platform's reset: all block state takes its value of 10_state.md R38 (70_reset_and_hazards.md R260). What the host
has still to send and has been given is not the block's (log 7). -/
def State.resetBlock (s : State) : State := { State.reset with hostIn := s.hostIn, hostOut := s.hostOut }

/-! ### How a command ends (60_exceptions.md section 3)

A command's body either gives the state with its effect or raises one error. -/

/-- The end of every command. A success keeps the body's effect and clears LASTF; a raised error drops it all, so that the
state before the command plus STATUS is what remains (R230 to R232). The block always goes on. -/
def conclude (s : State) (body : Except CmdError State) : Host.Outcome State Fault Refusal :=
  match body with
  | .ok t => .next t.succeed
  | .error e => .next (s.fail e)

/-- A body that needs an axis: AX = 3 selects none and the command is illegal (10_state.md R28, 30_encoding.md R85). No
decoded command has AX = 3, so `exec` raises this for ill-formed terms only (log 9). -/
def withAxis (ax : AxisField) (body : Axis → Except CmdError State) : Except CmdError State :=
  match axisOf ax with
  | none => .error .illegalCommand
  | some a => body a

/-- A body that reads the filter state of an axis: it must have been seeded (10_state.md R27, 60_exceptions.md R225). -/
def withSeeded (s : State) (a : Axis) (body : Word → Except CmdError State) : Except CmdError State :=
  if s.fvOf a = true then body (s.filtOf a) else .error .filterNotSeeded

end Sys2Proof.Machine
end

