-- ==== Sys2Proof/Machine/Operands.lean ====
section
/-! DEFINITION. What part of an operand pattern a command uses, and how a result is widened to a register
(spec 10_state.md R23, 30_encoding.md R83, R84, 00_scope.md R15). -/

namespace Sys2Proof.Machine

/-- A device register value in an operand register: bits 7:0, the rest ignored (10_state.md R23). -/
def State.byteOf (s : State) (r : RegIdx) : Byte := (s.reg r).extractLsb' 0 8

/-- A raw sample in an operand register: bits 15:0 as two's complement (42_converter.md R172). -/
def rawSample (v : Word) : Int := (v.extractLsb' 0 16).toInt

/-- A device register value or field written to an operand register: zero-extended (10_state.md R23). -/
def zextByte (v : Byte) : Word := v.setWidth 32

/-- `u32(sext_16(h))`: a 16-bit pattern sign-extended to a register (30_encoding.md R83, 42_converter.md R170). -/
def sextHalf (h : Half) : Word := BitVec.ofInt 32 h.toInt

/-- `s32(p)` (00_scope.md R15). -/
def s32 (p : Word) : Int := p.toInt

/-- `u32(n)`, the 32-bit two's complement pattern of n (00_scope.md R15). -/
def u32 (n : Int) : Word := BitVec.ofInt 32 n

/-- `floor(a / b)` for b > 0 (00_scope.md R15). -/
def floorDiv (a b : Int) : Int := Int.fdiv a b

/-- A register value with the bits of `mask` taken from `new` and every other bit kept (10_state.md R49). -/
def replaceBits (old mask new : Byte) : Byte := (old &&& ~~~mask) ||| (new &&& mask)

/-- A one-bit argument (`on`, `enable`) as a byte (30_encoding.md R83). -/
def bitAt (b : Bool) (pos : Nat) : Byte := (BitVec.ofBool b).setWidth 8 <<< pos

end Sys2Proof.Machine
end

