-- ==== Sys2Proof/Machine/Codec.lean ====
section
/-! DEFINITION. The bit-field codec commands (spec 41_codec.md). A semantic operand is the whole 32-bit pattern as an
unsigned number, and a value outside the domain raises INVALID_CONFIGURATION_VALUE before anything is written (R120). -/

namespace Sys2Proof.Machine

/-- UNREC, what a decode command returns for an unknown pattern (R123). -/
def unrec : Word := 0xFFFFFFFF#32

/-! ### The code tables -/

/-- `encode_range(g)` (R121, 10_state.md R44). -/
def encodeRange (g : Word) : Except CmdError Byte :=
  if g = 2#32 then .ok 0b00#8
  else if g = 4#32 then .ok 0b01#8
  else if g = 8#32 then .ok 0b10#8
  else if g = 16#32 then .ok 0b11#8
  else .error .invalidConfigurationValue

/-- `decode_range(bitpattern)` (R122). -/
def decodeRange (p : Word) : Word :=
  if p = 0#32 then 2#32
  else if p = 1#32 then 4#32
  else if p = 2#32 then 8#32
  else if p = 3#32 then 16#32
  else unrec

/-- `encode_datarate(k)`: index k is code k (R124, 10_state.md R45). -/
def encodeRate (k : Word) : Except CmdError Byte :=
  if 15 < k.toNat then .error .invalidConfigurationValue
  else .ok ((k.extractLsb' 0 4).setWidth 8)

/-- `decode_datarate(bitpattern)` (R125). -/
def decodeRate (p : Word) : Word := if p.toNat ≤ 15 then p else unrec

/-- The code of a wake frequency (R126, 10_state.md R46; the mapping is the spec's, from general knowledge, log 10). -/
def encodeWake (f : Word) : Except CmdError Byte :=
  if f = 8#32 then .ok 0b00#8
  else if f = 4#32 then .ok 0b01#8
  else if f = 2#32 then .ok 0b10#8
  else if f = 1#32 then .ok 0b11#8
  else .error .invalidConfigurationValue

/-- The wake frequency of a WAKEUP pattern (R127; log 10). -/
def decodeWake (p : Word) : Word :=
  if p = 0#32 then 8#32
  else if p = 1#32 then 4#32
  else if p = 2#32 then 2#32
  else if p = 3#32 then 1#32
  else unrec

/-! ### Encode and decode commands -/

/-- ENCRNG (R121). -/
def execEncrng (rd rs1 : RegIdx) (s : State) : Host.Outcome State Fault Refusal :=
  conclude s ((encodeRange (s.reg rs1)).map fun p => s.setReg rd (zextByte p))

/-- DECRNG (R122). -/
def execDecrng (rd rs1 : RegIdx) (s : State) : Host.Outcome State Fault Refusal :=
  conclude s (.ok (s.setReg rd (decodeRange (s.reg rs1))))

/-- ENCDR (R124). -/
def execEncdr (rd rs1 : RegIdx) (s : State) : Host.Outcome State Fault Refusal :=
  conclude s ((encodeRate (s.reg rs1)).map fun p => s.setReg rd (zextByte p))

/-- DECDR (R125). -/
def execDecdr (rd rs1 : RegIdx) (s : State) : Host.Outcome State Fault Refusal :=
  conclude s (.ok (s.setReg rd (decodeRate (s.reg rs1))))

/-- ENCWK (R126). -/
def execEncwk (rd rs1 : RegIdx) (s : State) : Host.Outcome State Fault Refusal :=
  conclude s ((encodeWake (s.reg rs1)).map fun p => s.setReg rd (zextByte p))

/-- DECWK (R127). -/
def execDecwk (rd rs1 : RegIdx) (s : State) : Host.Outcome State Fault Refusal :=
  conclude s (.ok (s.setReg rd (decodeWake (s.reg rs1))))

/-! ### Read-modify-write compositions (field ownership 10_state.md R49) -/

/-- SETRNG (R128): `(v & 0xFC) | p`. -/
def execSetrng (rd rs1 rs2 : RegIdx) (s : State) : Host.Outcome State Fault Refusal :=
  conclude s ((encodeRange (s.reg rs2)).map fun p => s.setReg rd (zextByte ((s.byteOf rs1 &&& 0xFC#8) ||| p)))

/-- SETDR (R129): `(v & 0xF0) | p`. -/
def execSetdr (rd rs1 rs2 : RegIdx) (s : State) : Host.Outcome State Fault Refusal :=
  conclude s ((encodeRate (s.reg rs2)).map fun p => s.setReg rd (zextByte ((s.byteOf rs1 &&& 0xF0#8) ||| p)))

/-- SETFR (R130): bit 3 is set to `on`, not toggled (90_conflicts.md C3): `(v & 0xF7) | (on << 3)`. -/
def execSetfr (rd rs1 : RegIdx) (on : Bool) (s : State) : Host.Outcome State Fault Refusal :=
  conclude s (.ok (s.setReg rd (zextByte ((s.byteOf rs1 &&& 0xF7#8) ||| bitAt on 3))))

/-- SETST (R131): bit 7 is set to `on`: `(v & 0x7F) | (on << 7)`. -/
def execSetst (rd rs1 : RegIdx) (on : Bool) (s : State) : Host.Outcome State Fault Refusal :=
  conclude s (.ok (s.setReg rd (zextByte ((s.byteOf rs1 &&& 0x7F#8) ||| bitAt on 7))))

/-- CPWR (R132, 90_conflicts.md C2 and C6): enabling gives `(v & 0xFC) | 0x10 | p`, disabling gives 0 and checks
nothing. -/
def execCpwr (rd rs1 rs2 : RegIdx) (enable : Bool) (s : State) : Host.Outcome State Fault Refusal :=
  conclude s
    (if enable = true then
      (encodeWake (s.reg rs2)).map fun p => s.setReg rd (zextByte ((s.byteOf rs1 &&& 0xFC#8) ||| 0x10#8 ||| p))
    else .ok (s.setReg rd 0#32))

/-- SETMS (R133): `v | 0x08`. -/
def execSetms (rd rs1 : RegIdx) (s : State) : Host.Outcome State Fault Refusal :=
  conclude s (.ok (s.setReg rd (zextByte (s.byteOf rs1 ||| 0x08#8))))

/-- MERGE (R134): the bits of the mask from rs2's low byte, the others from rs1's. -/
def execMerge (rd rs1 rs2 : RegIdx) (mask : Byte) (s : State) : Host.Outcome State Fault Refusal :=
  conclude s (.ok (s.setReg rd (zextByte (replaceBits (s.byteOf rs1) mask (s.byteOf rs2)))))

end Sys2Proof.Machine
end

