-- ==== Sys2Proof/Machine/Converter.lean ====
section
/-! DEFINITION. Raw-sample assembly and the fixed-point converter (spec 42_converter.md). -/

namespace Sys2Proof.Machine

/-- The 16-bit raw sample of a low and a high byte, low byte first (42_converter.md R170, 20_memory.md R64). -/
def composeRaw (lo hi : Byte) : Half := hi ++ lo

/-- `to_physical(raw)` in Q16.16: with `n = r × 1569064`, the integer `floor((2n + 625) / 1250)` (R172). -/
def toPhysical (r : Int) : Int := floorDiv (2 * (r * 1569064) + 625) 1250

/-- LDRAW (R170). -/
def execLdraw (rd rs1 rs2 : RegIdx) (s : State) : Host.Outcome State Fault Refusal :=
  conclude s (.ok (s.setReg rd (sextHalf (composeRaw (s.byteOf rs1) (s.byteOf rs2)))))

/-- CONV (R172): bits 31:16 of the operand are ignored. -/
def execConv (rd rs1 : RegIdx) (s : State) : Host.Outcome State Fault Refusal :=
  conclude s (.ok (s.setReg rd (u32 (toPhysical (rawSample (s.reg rs1))))))

end Sys2Proof.Machine
end

