-- ==== Sys2Proof/Machine/Filter.lean ====
section
/-! DEFINITION. The smoothing filter (spec 43_filter.md). -/

namespace Sys2Proof.Machine

/-- The clamped weight wq of an immediate read as signed Q2.14 (R192). -/
def clampWeight (imm : Half) : Int :=
  if imm.toInt < 0 then 0 else if imm.toInt > 16384 then 16384 else imm.toInt

/-- The accumulator of the smoothing step, exact (R193). -/
def smoothAcc (x y : Int) (imm : Half) : Int := x * clampWeight imm + y * (16384 - clampWeight imm)

/-- `smooth_fx(x, y, IMM)`: the accumulator over 16384, rounded to nearest with halves toward plus infinity (R193). -/
def smoothFx (x y : Int) (imm : Half) : Int := floorDiv (smoothAcc x y imm + 8192) 16384

/-- The step SMOOTH and SAMPLE share (R195, R196): the filtered value of sample `x` on axis `ax` goes to FILT[ax] and to
x[rd]; an unseeded axis raises FILTER_NOT_SEEDED. -/
def smoothStep (rd : RegIdx) (ax : AxisField) (x : Int) (weight : Half) (s : State) : Except CmdError State :=
  withAxis ax fun a => withSeeded s a fun y =>
    .ok ((s.setFilt a (u32 (smoothFx x (s32 y) weight))).setReg rd (u32 (smoothFx x (s32 y) weight)))

/-- SEED (R190). No operand register is written. -/
def execSeed (ax : AxisField) (rs1 : RegIdx) (s : State) : Host.Outcome State Fault Refusal :=
  conclude s (withAxis ax fun a => .ok (s.seedAxis a (s.reg rs1)))

/-- SMOOTH (R195): the sample is x[rs1] in its own scale. -/
def execSmooth (rd rs1 : RegIdx) (ax : AxisField) (weight : Half) (s : State) : Host.Outcome State Fault Refusal :=
  conclude s (smoothStep rd ax (s32 (s.reg rs1)) weight s)

/-- RDFILT (R197). -/
def execRdfilt (rd : RegIdx) (ax : AxisField) (s : State) : Host.Outcome State Fault Refusal :=
  conclude s (withAxis ax fun a => withSeeded s a fun y => .ok (s.setReg rd y))

/-- CLRFILT (R198). -/
def execClrfilt (ax : AxisField) (s : State) : Host.Outcome State Fault Refusal :=
  conclude s (withAxis ax fun a => .ok (s.clearAxis a))

/-- SAMPLE (R196): the sample is CONV of x[rs1]. -/
def execSample (rd rs1 : RegIdx) (ax : AxisField) (weight : Half) (s : State) : Host.Outcome State Fault Refusal :=
  conclude s (smoothStep rd ax (toPhysical (rawSample (s.reg rs1))) weight s)

end Sys2Proof.Machine
end

