-- ==== Sys2Proof/Machine/General.lean ====
section
/-! DEFINITION. NOP, LI, LIH and CHKID (spec 40_general.md). -/

namespace Sys2Proof.Machine

/-- The identification byte DEVID must return (40_general.md R106, 10_state.md R40). -/
def expectedDevid : Byte := 0xE5#8

/-- NOP (R100). -/
def execNop (s : State) : Host.Outcome State Fault Refusal := conclude s (.ok s)

/-- LI (R102): `x[rd] <- u32(sext_16(IMM))`. -/
def execLi (rd : RegIdx) (imm : Half) (s : State) : Host.Outcome State Fault Refusal :=
  conclude s (.ok (s.setReg rd (sextHalf imm)))

/-- LIH (R104): `x[rd] <- zext_16(IMM) :: x[rd][15:0]`. -/
def execLih (rd : RegIdx) (imm : Half) (s : State) : Host.Outcome State Fault Refusal :=
  conclude s (.ok (s.setReg rd (imm ++ (s.reg rd).extractLsb' 0 16)))

/-- CHKID (R106): the low byte must be 0xE5; no register is written. -/
def execChkid (rs1 : RegIdx) (s : State) : Host.Outcome State Fault Refusal :=
  conclude s (if s.byteOf rs1 ≠ expectedDevid then .error .identityMismatch else .ok s)

end Sys2Proof.Machine
end

