-- ==== Sys2Proof/Machine/Dispatch.lean ====
section
/-! DEFINITION. The meaning of every command of the opcode map (spec 30_encoding.md R86), one arm each. -/

namespace Sys2Proof.Machine

/-- Execute one command. -/
def exec (i : Instr) (s : State) : Host.Outcome State Fault Refusal :=
  match i with
  -- 40_general.md
  | .nop => Sys2Proof.Machine.execNop s
  | .li rd imm => Sys2Proof.Machine.execLi rd imm s
  | .lih rd imm => Sys2Proof.Machine.execLih rd imm s
  | .chkid rs1 => Sys2Proof.Machine.execChkid rs1 s
  -- 41_codec.md
  | .encrng rd rs1 => Sys2Proof.Machine.execEncrng rd rs1 s
  | .decrng rd rs1 => Sys2Proof.Machine.execDecrng rd rs1 s
  | .encdr rd rs1 => Sys2Proof.Machine.execEncdr rd rs1 s
  | .decdr rd rs1 => Sys2Proof.Machine.execDecdr rd rs1 s
  | .encwk rd rs1 => Sys2Proof.Machine.execEncwk rd rs1 s
  | .decwk rd rs1 => Sys2Proof.Machine.execDecwk rd rs1 s
  | .setrng rd rs1 rs2 => Sys2Proof.Machine.execSetrng rd rs1 rs2 s
  | .setdr rd rs1 rs2 => Sys2Proof.Machine.execSetdr rd rs1 rs2 s
  | .setfr rd rs1 on => Sys2Proof.Machine.execSetfr rd rs1 on s
  | .setst rd rs1 on => Sys2Proof.Machine.execSetst rd rs1 on s
  | .cpwr rd rs1 rs2 enable => Sys2Proof.Machine.execCpwr rd rs1 rs2 enable s
  | .setms rd rs1 => Sys2Proof.Machine.execSetms rd rs1 s
  | .merge rd rs1 rs2 mask => Sys2Proof.Machine.execMerge rd rs1 rs2 mask s
  -- 42_converter.md
  | .ldraw rd rs1 rs2 => Sys2Proof.Machine.execLdraw rd rs1 rs2 s
  | .conv rd rs1 => Sys2Proof.Machine.execConv rd rs1 s
  -- 43_filter.md
  | .seed ax rs1 => Sys2Proof.Machine.execSeed ax rs1 s
  | .smooth rd rs1 ax weight => Sys2Proof.Machine.execSmooth rd rs1 ax weight s
  | .rdfilt rd ax => Sys2Proof.Machine.execRdfilt rd ax s
  | .clrfilt ax => Sys2Proof.Machine.execClrfilt ax s
  | .sample rd rs1 ax weight => Sys2Proof.Machine.execSample rd rs1 ax weight s

end Sys2Proof.Machine
end

