-- ==== Sys2Proof/Machine/Window.lean ====
section
/-! DEFINITION. The host window (spec 20_memory.md section 2) and the execution of a word written to CMD
(30_encoding.md R80). -/

namespace Sys2Proof.Machine

/-- What stands at a word slot of the window (20_memory.md R52). -/
inductive WindowReg where
  | cmd
  | status
  | operand (r : RegIdx)
  | filter (a : Axis)
  | devmap0
  | devmap1
  | reserved
deriving DecidableEq, Repr

/-- The window map (R52); `off` is a multiple of 4 below 256. -/
def windowReg (off : Nat) : WindowReg :=
  if off = 0x00 then .cmd
  else if off = 0x04 then .status
  else if off ≤ 0x24 then .operand (BitVec.ofNat 3 ((off - 0x08) / 4))
  else if off = 0x28 then .filter .x
  else if off = 0x2C then .filter .y
  else if off = 0x30 then .filter .z
  else if off = 0x40 then .devmap0
  else if off = 0x44 then .devmap1
  else .reserved

/-- The length of the window in bytes (R51). -/
def windowBytes : Nat := 256

/-- The window offset of an access the window defines: aligned, 32 bits wide, inside the window; `none` for any other
(R53, R56). DESIGN CHOICE: the spec does not say that HOST_BASE is a multiple of 4, so it leaves open whether an access is
aligned by its host address or by its window offset; here it is the offset. Unsafe for a HOST_BASE that is no multiple
of 4; for any other the two agree (log 16). -/
def definedOffset (a : HostAccess) : Option Nat :=
  if a.bytes = 4 ∧ 0 ≤ a.offset ∧ a.offset < (windowBytes : Int) ∧ a.offset % 4 = 0 then some a.offset.toNat else none

/-- DEVMAP0 (10_state.md R35). -/
def devmap0 : Word := 0x312D2C00#32

/-- DEVMAP1 (10_state.md R36). -/
def devmap1 : Word := 0xE5363432#32

/-- A host read: it has no side effect, and CMD and reserved offsets read as zero (R52, R54, R55, R57, R68, 10_state.md R34). -/
def windowRead (s : State) : WindowReg → Word
  | .cmd => 0#32
  | .status => s.statusWord
  | .operand r => s.reg r
  | .filter a => s.filtOf a
  | .devmap0 => devmap0
  | .devmap1 => devmap1
  | .reserved => 0#32

/-- One word written to CMD: it executes as one command, or fails with ILLEGAL_COMMAND if it does not decode
(30_encoding.md R80, R88, 60_exceptions.md R222). -/
def runWord (w : Word) (s : State) : Host.Outcome State Fault Refusal :=
  match decode w with
  | .ok i => exec i s
  | .error _ => conclude s (.error .illegalCommand)

/-- A host write (R52, R54, R55, R57, 10_state.md R32, R34). -/
def windowWrite (v : Word) (s : State) : WindowReg → Host.Outcome State Fault Refusal
  | .cmd => runWord v s
  | .status => .next s.clearStatus
  | .operand r => .next (s.setReg r v)
  | .filter a => .next (s.seedAxis a v)
  | .devmap0 => .next s
  | .devmap1 => .next s
  | .reserved => .next s

/-- A host access. One the window does not define has no step (R56, log 6); a read's data goes to the host (log 3). -/
def serveAccess (a : HostAccess) (s : State) : Host.Outcome State Fault Refusal :=
  match definedOffset a with
  | none => .refused .hostBadAccess
  | some off =>
    match a.kind with
    | .read => .next { s with hostOut := s.hostOut ++ [windowRead s (windowReg off)] }
    | .write v => windowWrite v s (windowReg off)

/-- A host event (70_reset_and_hazards.md R285, R260). -/
def serveEvent (e : HostEvent) (s : State) : Host.Outcome State Fault Refusal :=
  match e with
  | .access a => serveAccess a s
  | .reset => .next s.resetBlock

/-! ### Building host events (00_scope.md R16) -/

/-- `HostRead(off)`, a 32-bit host read at a window offset. -/
def hostRead (off : Nat) : HostEvent := .access ⟨off, 4, .read⟩

/-- `HostWrite(off, v)`, a 32-bit host write at a window offset. -/
def hostWrite (off : Nat) (v : Word) : HostEvent := .access ⟨off, 4, .write v⟩

/-- A host access by its host address, for the platform's HOST_BASE (20_memory.md R51, log 5). -/
def accessAt (addr bytes : Nat) (kind : AccessKind) : HostAccess := ⟨(addr : Int) - (Config.hostBase : Int), bytes, kind⟩

/-- A program: the host's sequence of CMD writes (10_state.md R24). -/
def cmdWrites (ws : List Word) : List HostEvent := ws.map (hostWrite 0x00)

end Sys2Proof.Machine
end

