-- ==== Sys2Proof/Machine/Step.lean ====
section
/-! DEFINITION. One step of the machine: the next host event, complete before the one after it (spec 20_memory.md R71,
70_reset_and_hazards.md R280, R284). -/

namespace Sys2Proof.Machine

/-- One step: the oldest pending host event takes effect. With none pending nothing happens: the block acts only on host
writes (30_encoding.md R80; log 2). -/
def step (s : State) : Host.Outcome State Fault Refusal :=
  match s.hostIn with
  | [] => .next s
  | e :: rest => serveEvent e { s with hostIn := rest }

/-- `s` with the host about to write the word `w` to CMD: a command is not fetched, the host supplies it (10_state.md R24,
R34; log 4). `nbits` is 32 for every row of the opcode table. -/
def State.withFetchWord (s : State) (nbits w : Nat) : State :=
  { s with hostIn := hostWrite 0x00 (BitVec.ofNat 32 (w % 2 ^ nbits)) :: s.hostIn }

end Sys2Proof.Machine
end

