-- ==== Sys2Proof/Machine/Assembler.lean ====
section
/-! DEFINITION. The assembler syntax (spec 30_encoding.md R91, R92) and the pseudo-instructions (R93). -/

namespace Sys2Proof.Machine

/-! ### Pseudo-instructions (R93) -/

/-- `LI32 rd, v`. -/
def expandLi32 (rd : RegIdx) (v : Word) : List Instr :=
  [.li rd (v.extractLsb' 0 16), .lih rd (v.extractLsb' 16 16)]

/-- `PWROFF rd`. -/
def expandPwroff (rd : RegIdx) : List Instr := [.cpwr rd 0#3 0#3 false]

/-- `MOVB rd, rs`. -/
def expandMovb (rd rs : RegIdx) : List Instr := [.merge rd rs rs 255#8]

/-- `EXTB rd, rs, mask`; refused when rd = rs. -/
def expandExtb (rd rs : RegIdx) (mask : Byte) : Option (List Instr) :=
  if rd = rs then none else some [.li rd 0#16, .merge rd rd rs mask]

/-! ### Operands (R91, R92) -/

/-- An operand as it is written: a register, an axis, an integer, or a decimal number with a point, whose value is
`digits / 10 ^ places`. -/
inductive AsmOperand where
  | reg (r : RegIdx)
  | axis (a : Axis)
  | int (n : Int)
  | decimal (digits : Int) (places : Nat)
deriving DecidableEq, Repr

/-- The mnemonics a line may begin with (R91, R93). -/
inductive AsmMnemonic where
  | core (m : Mnemonic)
  | li32
  | pwroff
  | movb
  | extb
deriving DecidableEq, Repr

/-- The AX field of an axis (R91, 10_state.md R28). -/
def axisFieldOf : Axis → AxisField
  | .x => 0#2
  | .y => 1#2
  | .z => 2#2

/-- An integer of LI or a weight as a 16-bit pattern: -32768..65535 (R91, R92). -/
def imm16Of (n : Int) : Option Half := if -32768 ≤ n ∧ n ≤ 65535 then some (BitVec.ofInt 16 n) else none

/-- An integer of LIH: 0..65535 (R91). -/
def immHighOf (n : Int) : Option Half := if 0 ≤ n ∧ n ≤ 65535 then some (BitVec.ofInt 16 n) else none

/-- A one-bit operand: 0 or 1 (R91). -/
def imm1Of (n : Int) : Option Bool := if n = 0 then some false else if n = 1 then some true else none

/-- A mask: 0..255 (R91). -/
def imm8Of (n : Int) : Option Byte := if 0 ≤ n ∧ n ≤ 255 then some (BitVec.ofInt 8 n) else none

/-- The integer nearest to `num / den`, ties away from zero; `den` is positive (R92). -/
def nearestAwayFromZero (num : Int) (den : Nat) : Int :=
  if 0 ≤ num then floorDiv (2 * num + den) (2 * den) else - floorDiv (2 * (- num) + den) (2 * den)

/-- A weight operand as its 16-bit pattern (R92): an integer is the pattern itself, a decimal number is rounded to the
nearest 2^-14 and must lie in -32768..32767. -/
def weightOf : AsmOperand → Option Half
  | .int n => imm16Of n
  | .decimal d k =>
    if -32768 ≤ nearestAwayFromZero (d * 16384) (10 ^ k) ∧ nearestAwayFromZero (d * 16384) (10 ^ k) ≤ 32767 then
      some (BitVec.ofInt 16 (nearestAwayFromZero (d * 16384) (10 ^ k)))
    else none
  | .reg _ => none
  | .axis _ => none

/-- A line with a mnemonic of the opcode map (R91); `none` where the operands are not of its row. -/
def assembleCore (m : Mnemonic) (ops : List AsmOperand) : Option Instr :=
  match m, ops with
  | .nop, [] => some .nop
  | .li, [.reg rd, .int n] => (imm16Of n).map (.li rd)
  | .lih, [.reg rd, .int n] => (immHighOf n).map (.lih rd)
  | .chkid, [.reg rs1] => some (.chkid rs1)
  | .encrng, [.reg rd, .reg rs1] => some (.encrng rd rs1)
  | .decrng, [.reg rd, .reg rs1] => some (.decrng rd rs1)
  | .encdr, [.reg rd, .reg rs1] => some (.encdr rd rs1)
  | .decdr, [.reg rd, .reg rs1] => some (.decdr rd rs1)
  | .encwk, [.reg rd, .reg rs1] => some (.encwk rd rs1)
  | .decwk, [.reg rd, .reg rs1] => some (.decwk rd rs1)
  | .setms, [.reg rd, .reg rs1] => some (.setms rd rs1)
  | .conv, [.reg rd, .reg rs1] => some (.conv rd rs1)
  | .setrng, [.reg rd, .reg rs1, .reg rs2] => some (.setrng rd rs1 rs2)
  | .setdr, [.reg rd, .reg rs1, .reg rs2] => some (.setdr rd rs1 rs2)
  | .ldraw, [.reg rd, .reg rs1, .reg rs2] => some (.ldraw rd rs1 rs2)
  | .setfr, [.reg rd, .reg rs1, .int on] => (imm1Of on).map (.setfr rd rs1)
  | .setst, [.reg rd, .reg rs1, .int on] => (imm1Of on).map (.setst rd rs1)
  | .cpwr, [.reg rd, .reg rs1, .reg rs2, .int enable] => (imm1Of enable).map (.cpwr rd rs1 rs2)
  | .merge, [.reg rd, .reg rs1, .reg rs2, .int mask] => (imm8Of mask).map (.merge rd rs1 rs2)
  | .seed, [.axis ax, .reg rs1] => some (.seed (axisFieldOf ax) rs1)
  | .smooth, [.reg rd, .reg rs1, .axis ax, w] => (weightOf w).map (.smooth rd rs1 (axisFieldOf ax))
  | .sample, [.reg rd, .reg rs1, .axis ax, w] => (weightOf w).map (.sample rd rs1 (axisFieldOf ax))
  | .rdfilt, [.reg rd, .axis ax] => some (.rdfilt rd (axisFieldOf ax))
  | .clrfilt, [.axis ax] => some (.clrfilt (axisFieldOf ax))
  | _, _ => none

/-- A line of the assembler (R91, R93): the commands it stands for. LI32 takes any 32-bit value, signed or unsigned
(log 12). -/
def assemble (m : AsmMnemonic) (ops : List AsmOperand) : Option (List Instr) :=
  match m, ops with
  | .core c, ops => (assembleCore c ops).map fun i => [i]
  | .li32, [.reg rd, .int v] =>
    if -2147483648 ≤ v ∧ v ≤ 4294967295 then some (expandLi32 rd (BitVec.ofInt 32 v)) else none
  | .pwroff, [.reg rd] => some (expandPwroff rd)
  | .movb, [.reg rd, .reg rs] => some (expandMovb rd rs)
  | .extb, [.reg rd, .reg rs, .int mask] => (imm8Of mask).bind (expandExtb rd rs)
  | _, _ => none

/-! ### The text of a line (R91) -/

/-- The name of a mnemonic of the opcode map, as R86 spells it. -/
def mnemonicText : Mnemonic → String
  | .nop => "NOP"
  | .li => "LI"
  | .lih => "LIH"
  | .chkid => "CHKID"
  | .encrng => "ENCRNG"
  | .decrng => "DECRNG"
  | .encdr => "ENCDR"
  | .decdr => "DECDR"
  | .encwk => "ENCWK"
  | .decwk => "DECWK"
  | .setrng => "SETRNG"
  | .setdr => "SETDR"
  | .setfr => "SETFR"
  | .setst => "SETST"
  | .cpwr => "CPWR"
  | .setms => "SETMS"
  | .merge => "MERGE"
  | .ldraw => "LDRAW"
  | .conv => "CONV"
  | .seed => "SEED"
  | .smooth => "SMOOTH"
  | .rdfilt => "RDFILT"
  | .clrfilt => "CLRFILT"
  | .sample => "SAMPLE"

/-- The name of any mnemonic a line may begin with (R86, R93). -/
def asmMnemonicText : AsmMnemonic → String
  | .core m => mnemonicText m
  | .li32 => "LI32"
  | .pwroff => "PWROFF"
  | .movb => "MOVB"
  | .extb => "EXTB"

/-- The last `places` decimal digits of `n`, most significant first. -/
def digitsText : Nat → Nat → String
  | 0, _ => ""
  | places + 1, n => digitsText places (n / 10) ++ toString (n % 10)

/-- An operand as it is written: `r0`..`r7`, `X`, `Y`, `Z`, an integer, or a decimal number with a point. -/
def operandText : AsmOperand → String
  | .reg r => "r" ++ toString r.toNat
  | .axis .x => "X"
  | .axis .y => "Y"
  | .axis .z => "Z"
  | .int n => toString n
  | .decimal d k =>
    (if d < 0 then "-" else "") ++ toString (d.natAbs / 10 ^ k) ++ "." ++ digitsText k d.natAbs

/-- A line: the mnemonic, a space, then the operands separated by commas (R91). -/
def lineText (m : AsmMnemonic) (ops : List AsmOperand) : String :=
  match ops with
  | [] => asmMnemonicText m
  | _ :: _ => asmMnemonicText m ++ " " ++ String.intercalate ", " (ops.map operandText)

end Sys2Proof.Machine
end

