-- ==== Sys2Proof/Machine/Device.lean ====
section
/-! DEFINITION. The accelerometer's register map and the register access contract the host keeps (spec 10_state.md
section 6, 20_memory.md section 3). The block neither holds these registers nor drives the bus (00_scope.md R7, R10): a
bus reply is an input here, any value the bus gives. -/

namespace Sys2Proof.Machine

/-- The device registers the source names (10_state.md R39, R47). -/
inductive DeviceReg where
  | devid | bwRate | powerCtl | dataFormat
  | datax0 | datax1 | datay0 | datay1 | dataz0 | dataz1
deriving DecidableEq, Repr

/-- The address of a device register (R39, R47). -/
def deviceAddress : DeviceReg → Byte
  | .devid => 0x00#8
  | .bwRate => 0x2C#8
  | .powerCtl => 0x2D#8
  | .dataFormat => 0x31#8
  | .datax0 => 0x32#8
  | .datax1 => 0x33#8
  | .datay0 => 0x34#8
  | .datay1 => 0x35#8
  | .dataz0 => 0x36#8
  | .dataz1 => 0x37#8

/-- The low-byte register of an axis (R39, R47). -/
def axisDataReg : Axis → DeviceReg
  | .x => .datax0
  | .y => .datay0
  | .z => .dataz0

/-! ### Fields with a meaning to the codec, as masks (R41 to R43) -/

/-- BW_RATE[3:0], the data-rate code. -/
def rateMask : Byte := 0x0F#8
/-- POWER_CTL[1:0], the wake-frequency code (position from the spec's general knowledge, log 10). -/
def wakeupMask : Byte := 0x03#8
/-- POWER_CTL[3]. -/
def measureMask : Byte := 0x08#8
/-- POWER_CTL[4]. -/
def autoSleepMask : Byte := 0x10#8
/-- DATA_FORMAT[1:0]. -/
def rangeMask : Byte := 0x03#8
/-- DATA_FORMAT[3]. -/
def fullResMask : Byte := 0x08#8
/-- DATA_FORMAT[7]. -/
def selfTestMask : Byte := 0x80#8

/-! ### The register access contract (20_memory.md R59 to R63) -/

/-- A transport failure, reported upward and not retried (R60). The block never raises it (60_exceptions.md R226). -/
inductive BusError where
  | busError
deriving DecidableEq, Repr

/-- One bus transaction of the collaborator (R59), less the device address, which stays with the host. -/
inductive BusTransaction where
  | read (register : Byte) (length : Nat)
  | write (register : Byte) (bytes : List Byte)
deriving DecidableEq, Repr

/-- `read_byte` issues one one-byte read (R60, R62). -/
def readByteTransactions (addr : Byte) : List BusTransaction := [.read addr 1]

/-- `read_word` issues one read of two consecutive bytes (R61, R62). -/
def readWordTransactions (addr : Byte) : List BusTransaction := [.read addr 2]

/-- `write_byte` issues one one-byte write (R62). -/
def writeByteTransactions (addr value : Byte) : List BusTransaction := [.write addr [value]]

/-- `read_axes` issues three word reads, at 0x32, 0x34 and 0x36 (R63). DESIGN CHOICE: the spec does not say whether the word
reads after a failed one are still issued, nor in which order the three go; here all three are, in the order X, Y, Z, and
no obligation rests on it (log 17). -/
def readAxesTransactions : List BusTransaction :=
  [Axis.x, Axis.y, Axis.z].flatMap fun a => readWordTransactions (deviceAddress (axisDataReg a))

/-- The result of `read_byte` for the bus's reply: the byte as an unsigned number, or the transport failure, passed on and not
retried (R60). -/
def readByte (reply : Except BusError Byte) : Except BusError Nat := reply.map BitVec.toNat

/-- The result of `write_byte` for the bus's reply: ok, or the transport failure, passed on and not retried (R62). -/
def writeByte (reply : Except BusError Unit) : Except BusError Unit :=
  match reply with
  | .ok () => .ok ()
  | .error e => .error e

/-- The result of `read_word` for a reply of the bytes at `addr` and `addr + 1`: low byte first, two's complement (R61,
90_conflicts.md C9). -/
def readWord (reply : Except BusError (Byte × Byte)) : Except BusError Int :=
  reply.map fun b => (composeRaw b.1 b.2).toInt

/-- The result of `read_axes`: it fails as a whole if any axis read fails (R63). -/
def readAxes (x y z : Except BusError (Byte × Byte)) : Except BusError (Int × Int × Int) :=
  match readWord x, readWord y, readWord z with
  | .ok rx, .ok ry, .ok rz => .ok (rx, ry, rz)
  | .error e, _, _ => .error e
  | .ok _, .error e, _ => .error e
  | .ok _, .ok _, .error e => .error e

end Sys2Proof.Machine
end

