-- ==== Sys2Proof/Safety.lean ====
section
/-! DEFINITION. The terms claims use: which error a command raises, what a command may write, which states are legal, and
what a safe run is (spec 60_exceptions.md R221 to R228, 10_state.md R22, R30, R49, 70_reset_and_hazards.md R285). -/

namespace Sys2Proof.Safety

open Sys2Proof.Machine

/-! ### Command words, written from 30_encoding.md R81, R86 and R95 rather than from the decoder's table -/

/-- The word of R95: `(OPC << 27) | (RD << 24) | (RS1 << 21) | (RS2 << 18) | (AX << 16) | IMM`. -/
def rawWord (opc : Nat) (rd rs1 rs2 : RegIdx) (ax : AxisField) (imm : Half) : Word :=
  BitVec.ofNat 32 ((opc <<< 27) ||| ((rd.toNat <<< 24) ||| ((rs1.toNat <<< 21) ||| ((rs2.toNat <<< 18) |||
    ((ax.toNat <<< 16) ||| imm.toNat)))))

/-- A field of the command word that an opcode may use (R81, R82). -/
inductive WordField where
  | rd | rs1 | rs2 | ax | imm16 | imm1 | imm8
deriving DecidableEq, Repr

/-- The bits of a field (R81, R82). -/
def fieldBits : WordField → Word
  | .rd => 0x07000000#32
  | .rs1 => 0x00E00000#32
  | .rs2 => 0x001C0000#32
  | .ax => 0x00030000#32
  | .imm16 => 0x0000FFFF#32
  | .imm1 => 0x00000001#32
  | .imm8 => 0x000000FF#32

/-- The "used fields" column of R86 by opcode; `none` for the reserved opcodes of R87. -/
def usedFields : Nat → Option (List WordField)
  | 0x00 => some []
  | 0x01 => some [.rd, .imm16]
  | 0x02 => some [.rd, .imm16]
  | 0x03 => some [.rs1]
  | 0x04 => some [.rd, .rs1]
  | 0x05 => some [.rd, .rs1]
  | 0x06 => some [.rd, .rs1]
  | 0x07 => some [.rd, .rs1]
  | 0x08 => some [.rd, .rs1]
  | 0x09 => some [.rd, .rs1]
  | 0x0A => some [.rd, .rs1, .rs2]
  | 0x0B => some [.rd, .rs1, .rs2]
  | 0x0C => some [.rd, .rs1, .imm1]
  | 0x0D => some [.rd, .rs1, .imm1]
  | 0x0E => some [.rd, .rs1, .rs2, .imm1]
  | 0x0F => some [.rd, .rs1]
  | 0x10 => some [.rd, .rs1, .rs2, .imm8]
  | 0x11 => some [.rd, .rs1, .rs2]
  | 0x12 => some [.rd, .rs1]
  | 0x13 => some [.rs1, .ax]
  | 0x14 => some [.rd, .rs1, .ax, .imm16]
  | 0x15 => some [.rd, .ax]
  | 0x16 => some [.ax]
  | 0x17 => some [.rd, .rs1, .ax, .imm16]
  | _ => none

/-- A word is illegal (R88): a reserved OPC, a 1 in a bit the opcode does not use, or AX = 3 in an opcode that uses
AX. -/
def Illegal (w : Word) : Prop :=
  match usedFields (w.toNat / 2 ^ 27) with
  | none => True
  | some fields =>
    (∃ j < 27, w.getLsbD j = true ∧ ∀ f ∈ fields, (fieldBits f).getLsbD j = false) ∨
      (WordField.ax ∈ fields ∧ w.toNat / 2 ^ 16 % 4 = 3)

/-! ### Errors, written from 60_exceptions.md rather than from the meanings -/

/-- The domain of the range g (60_exceptions.md R223). -/
def rangeDomain (g : Word) : Bool := [2, 4, 8, 16].contains g.toNat

/-- The domain of the rate index k (R223). -/
def rateDomain (k : Word) : Bool := decide (k.toNat ≤ 15)

/-- The domain of the wake frequency f (R223). -/
def wakeDomain (f : Word) : Bool := [8, 4, 2, 1].contains f.toNat

/-- The error of a domain check. -/
def domainError (inDomain : Bool) : Option CmdError := if inDomain then none else some .invalidConfigurationValue

/-- The error of a command that needs its axis seeded (R225); an AX field of 3 is an illegal command (R222). -/
def seededError (s : State) (ax : AxisField) : Option CmdError :=
  match axisOf ax with
  | none => some .illegalCommand
  | some a => if s.fvOf a then none else some .filterNotSeeded

/-- The error of a command that uses an axis but reads no filter state. -/
def axisError (ax : AxisField) : Option CmdError :=
  match axisOf ax with
  | none => some .illegalCommand
  | some _ => none

/-- The error a command raises in a state, `none` if it succeeds (60_exceptions.md R221, R223 to R225, R228). -/
def errorOf (s : State) : Instr → Option CmdError
  | .nop => none
  | .li _ _ => none
  | .lih _ _ => none
  | .chkid rs1 => if (s.reg rs1).toNat % 256 = 0xE5 then none else some .identityMismatch
  | .encrng _ rs1 => domainError (rangeDomain (s.reg rs1))
  | .decrng _ _ => none
  | .encdr _ rs1 => domainError (rateDomain (s.reg rs1))
  | .decdr _ _ => none
  | .encwk _ rs1 => domainError (wakeDomain (s.reg rs1))
  | .decwk _ _ => none
  | .setrng _ _ rs2 => domainError (rangeDomain (s.reg rs2))
  | .setdr _ _ rs2 => domainError (rateDomain (s.reg rs2))
  | .setfr _ _ _ => none
  | .setst _ _ _ => none
  | .cpwr _ _ rs2 enable => if enable then domainError (wakeDomain (s.reg rs2)) else none
  | .setms _ _ => none
  | .merge _ _ _ _ => none
  | .ldraw _ _ _ => none
  | .conv _ _ => none
  | .seed ax _ => axisError ax
  | .smooth _ _ ax _ => seededError s ax
  | .rdfilt _ ax => seededError s ax
  | .clrfilt ax => axisError ax
  | .sample _ _ ax _ => seededError s ax

/-- The error of a word written to CMD (R222, R228: decoding is checked first). -/
def wordError (s : State) (w : Word) : Option CmdError :=
  match decode w with
  | .error _ => some .illegalCommand
  | .ok i => errorOf s i

/-! ### What a command leaves, written from the rules rather than from the operations -/

/-- After a command that failed with a code (60_exceptions.md R230, R231): STATUS is updated, nothing else changes. -/
def afterFailure (s : State) (code : BitVec 3) : State :=
  { s with lastf := true, err := if s.err = 0#3 then code else s.err }

/-- `t` is what a command that succeeded leaves of `s` (R231) when it wrote `dest` (an operand register and its value) and
`filter` (an axis, its FILT and its FV), each if any, and nothing else. -/
def Wrote (s t : State) (dest : Option (RegIdx × Word)) (filter : Option (Axis × Word × Bool)) : Prop :=
  (∀ r, t.reg r = match dest with
    | some (d, v) => if r = d then v else s.reg r
    | none => s.reg r) ∧
  (∀ a, (t.filtOf a, t.fvOf a) = match filter with
    | some (b, v, valid) => if a = b then (v, valid) else (s.filtOf a, s.fvOf a)
    | none => (s.filtOf a, s.fvOf a)) ∧
  t.err = s.err ∧ t.lastf = false ∧ t.hostIn = s.hostIn ∧ t.hostOut = s.hostOut

/-- Commands one after another (10_state.md R24). -/
def execAll : List Instr → State → Host.Outcome State Fault Refusal
  | [], s => .next s
  | i :: rest, s =>
    match exec i s with
    | .next t => execAll rest t
    | .fault f => .fault f
    | .refused r => .refused r

/-! ### Tables and arithmetic of the rules -/

/-- The range in g and its code (10_state.md R44). -/
def rangeCodes : List (Nat × Nat) := [(2, 0), (4, 1), (8, 2), (16, 3)]

/-- The wake frequency in Hz and its code (10_state.md R46, log 10). -/
def wakeCodes : List (Nat × Nat) := [(8, 0), (4, 1), (2, 2), (1, 3)]

/-- The clamped weight of an immediate, in units of 2^-14 (43_filter.md R192). -/
def weightQ (imm : Half) : Int := max 0 (min 16384 imm.toInt)

/-- `f = floor((x × wq + y × (16384 - wq) + 8192) / 16384)`, said by inequalities (43_filter.md R193). -/
def IsSmoothed (x y : Int) (imm : Half) (f : Int) : Prop :=
  16384 * f ≤ x * weightQ imm + y * (16384 - weightQ imm) + 8192 ∧
    x * weightQ imm + y * (16384 - weightQ imm) + 8192 < 16384 * (f + 1)

/-- `q = floor((2n + 625) / 1250)` with `n = r × 1569064`, said by inequalities (42_converter.md R172). -/
def IsConverted (r q : Int) : Prop :=
  1250 * q ≤ 2 * (r * 1569064) + 625 ∧ 2 * (r * 1569064) + 625 < 1250 * (q + 1)

/-! ### What a command may write -/

/-- The one operand register a command writes when it succeeds (10_state.md R22; "Pseudocode" of each command). -/
def destReg : Instr → Option RegIdx
  | .nop => none
  | .li rd _ => some rd
  | .lih rd _ => some rd
  | .chkid _ => none
  | .encrng rd _ => some rd
  | .decrng rd _ => some rd
  | .encdr rd _ => some rd
  | .decdr rd _ => some rd
  | .encwk rd _ => some rd
  | .decwk rd _ => some rd
  | .setrng rd _ _ => some rd
  | .setdr rd _ _ => some rd
  | .setfr rd _ _ => some rd
  | .setst rd _ _ => some rd
  | .cpwr rd _ _ _ => some rd
  | .setms rd _ => some rd
  | .merge rd _ _ _ => some rd
  | .ldraw rd _ _ => some rd
  | .conv rd _ => some rd
  | .seed _ _ => none
  | .smooth rd _ _ _ => some rd
  | .rdfilt rd _ => some rd
  | .clrfilt _ => none
  | .sample rd _ _ _ => some rd

/-- The axis whose FILT a command may write (43_filter.md R190, R195, R196, R198). -/
def filtWritten : Instr → Option Axis
  | .seed ax _ => axisOf ax
  | .smooth _ _ ax _ => axisOf ax
  | .clrfilt ax => axisOf ax
  | .sample _ _ ax _ => axisOf ax
  | .nop => none
  | .li _ _ => none
  | .lih _ _ => none
  | .chkid _ => none
  | .encrng _ _ => none
  | .decrng _ _ => none
  | .encdr _ _ => none
  | .decdr _ _ => none
  | .encwk _ _ => none
  | .decwk _ _ => none
  | .setrng _ _ _ => none
  | .setdr _ _ _ => none
  | .setfr _ _ _ => none
  | .setst _ _ _ => none
  | .cpwr _ _ _ _ => none
  | .setms _ _ => none
  | .merge _ _ _ _ => none
  | .ldraw _ _ _ => none
  | .conv _ _ => none
  | .rdfilt _ _ => none

/-- The axis whose FV a command may write: only SEED and CLRFILT do (10_state.md R27). -/
def fvWritten : Instr → Option Axis
  | .seed ax _ => axisOf ax
  | .clrfilt ax => axisOf ax
  | .nop => none
  | .li _ _ => none
  | .lih _ _ => none
  | .chkid _ => none
  | .encrng _ _ => none
  | .decrng _ _ => none
  | .encdr _ _ => none
  | .decdr _ _ => none
  | .encwk _ _ => none
  | .decwk _ _ => none
  | .setrng _ _ _ => none
  | .setdr _ _ _ => none
  | .setfr _ _ _ => none
  | .setst _ _ _ => none
  | .cpwr _ _ _ _ => none
  | .setms _ _ => none
  | .merge _ _ _ _ => none
  | .ldraw _ _ _ => none
  | .conv _ _ => none
  | .smooth _ _ _ _ => none
  | .rdfilt _ _ => none
  | .sample _ _ _ _ => none

/-- A read-modify-write command: its destination, the register with the old value, and the bits it owns (10_state.md
R49). Disabling CPWR owns the whole register. -/
def rmwOwnership : Instr → Option (RegIdx × RegIdx × Byte)
  | .setrng rd rs1 _ => some (rd, rs1, rangeMask)
  | .setfr rd rs1 _ => some (rd, rs1, fullResMask)
  | .setst rd rs1 _ => some (rd, rs1, selfTestMask)
  | .setdr rd rs1 _ => some (rd, rs1, rateMask)
  | .setms rd rs1 => some (rd, rs1, measureMask)
  | .cpwr rd rs1 _ enable => some (rd, rs1, if enable then autoSleepMask ||| wakeupMask else 0xFF#8)
  | .merge rd rs1 _ mask => some (rd, rs1, mask)
  | .nop => none
  | .li _ _ => none
  | .lih _ _ => none
  | .chkid _ => none
  | .encrng _ _ => none
  | .decrng _ _ => none
  | .encdr _ _ => none
  | .decdr _ _ => none
  | .encwk _ _ => none
  | .decwk _ _ => none
  | .ldraw _ _ _ => none
  | .conv _ _ => none
  | .seed _ _ => none
  | .smooth _ _ _ _ => none
  | .rdfilt _ _ => none
  | .clrfilt _ => none
  | .sample _ _ _ _ => none

/-! ### Legal states -/

/-- The invariant of the block: ERR is one of the codes 0 to 4 (10_state.md R30), a failure still shown by LASTF has left
a code in ERR (60_exceptions.md R231), and an undefined filter state holds the pattern 0 (20_memory.md R55). -/
def Inv (s : State) : Prop :=
  s.err.toNat ≤ 4 ∧ (s.lastf = true → s.err ≠ 0#3) ∧ ∀ a : Axis, s.fvOf a = false → s.filtOf a = 0#32

/-- Two states that agree on everything but STATUS.ERR and STATUS.LASTF. -/
def AgreeButStatus (s t : State) : Prop :=
  s.regs = t.regs ∧ s.filt = t.filt ∧ s.fv = t.fv ∧ s.hostIn = t.hostIn ∧ s.hostOut = t.hostOut

/-- Two states that agree on everything but the filter state of one axis. -/
def AgreeButAxis (b : Axis) (s t : State) : Prop :=
  s.regs = t.regs ∧ s.err = t.err ∧ s.lastf = t.lastf ∧ s.hostIn = t.hostIn ∧ s.hostOut = t.hostOut ∧
    ∀ a : Axis, a ≠ b → s.filtOf a = t.filtOf a ∧ s.fvOf a = t.fvOf a

/-! ### Safe runs -/

/-- An event the block answers: the reset, or an access the window defines (20_memory.md R56; the last row of
70_reset_and_hazards.md R285 is the host's duty not to make any other). -/
def eventDefined : HostEvent → Bool
  | .access a => (definedOffset a).isSome
  | .reset => true

/-- A safe run: every pending host event is one the block answers. -/
def hostObedient (s : State) : Bool := s.hostIn.all eventDefined

end Sys2Proof.Safety
end

