-- ==== Sys2Proof/Certificates/Slice0/Obligations.lean ====
section
/-! DEFINITION. The statements for the provers, from the numbered rules of spec/. ACC-CODEC has no data memory (20_memory.md
R50), so no frame speaks of memory; a frame speaks of every field of State. A host access stands at the head of `hostIn`
(log 1), so `{ s with hostIn := e :: rest }` is any state whose next event is `e`. -/

open Sys2Proof Sys2Proof.Machine Sys2Proof.Safety

/-! ### Encoding (30_encoding.md) -/

/-- R95, which the spec derives from R81, R82 and R94: encoding is the inverse of decoding, for every well-formed command with
every operand at every value. -/
def Obligations.DecodeOfEncodeIsIdentity : Prop :=
  ∀ i : Instr, WellFormed i → decode (encode i) = .ok i

/-- R95, which the spec derives: each decodable word has exactly one mnemonic and one operand tuple. -/
def Obligations.EncodeOfDecodeIsIdentity : Prop :=
  ∀ (w : Word) (i : Instr), decode w = .ok i → WellFormed i ∧ encode i = w

/-- R88: a word is illegal exactly when it does not decode, which is a reserved OPC, a 1 in an unused bit, or AX = 3 in an
AX-using opcode; an illegal word fails with ILLEGAL_COMMAND and has no other effect. -/
def Obligations.IllegalWordsAreRejectedAndFail : Prop :=
  ∀ (w : Word) (s : State),
    ((∃ e, decode w = .error e) ↔ Illegal w) ∧
    (Illegal w → runWord w s = .next (afterFailure s 1#3))

/-- A few words from R81's fields and R86's opcodes, one or two of each family. -/
def Obligations.WordsOfTheSpecDecode : Prop :=
  decode (0b00000#5 ++ 0b000#3 ++ 0b000#3 ++ 0b000#3 ++ 0b00#2 ++ 0x0000#16) = .ok .nop ∧
  decode (0b00001#5 ++ 0b001#3 ++ 0b000#3 ++ 0b000#3 ++ 0b00#2 ++ 0x00E5#16) = .ok (.li 1 0x00E5) ∧
  decode (0b01110#5 ++ 0b011#3 ++ 0b001#3 ++ 0b010#3 ++ 0b00#2 ++ 0x0001#16) = .ok (.cpwr 3 1 2 true) ∧
  decode (0b10001#5 ++ 0b011#3 ++ 0b001#3 ++ 0b010#3 ++ 0b00#2 ++ 0x0000#16) = .ok (.ldraw 3 1 2) ∧
  decode (0b10100#5 ++ 0b101#3 ++ 0b100#3 ++ 0b000#3 ++ 0b01#2 ++ 0x2000#16) = .ok (.smooth 5 4 1 0x2000)

/-! ### General commands (40_general.md) -/

/-- R89 and R100. -/
def Obligations.NopWord0ChangesOnlyLastf : Prop :=
  (∀ (w : Word) (i : Instr), w.toNat / 2 ^ 27 = 0 → (decode w = .ok i ↔ w = 0#32 ∧ i = .nop)) ∧
  ∀ s : State, ∃ t, exec .nop s = .next t ∧ Wrote s t none none

/-- R102. Its first clause says which word it is. -/
def Obligations.LiLoadsSignExtendedImmediate : Prop :=
  ∀ (rd : RegIdx) (imm : Half) (s : State),
    (∀ w, decode w = .ok (.li rd imm) ↔ w = rawWord 0x01 rd 0 0 0 imm) ∧
    ∃ (t : State) (v : Word), exec (.li rd imm) s = .next t ∧ v.toInt = imm.toInt ∧ Wrote s t (some (rd, v)) none

/-- R104. Its first clause says which word it is. -/
def Obligations.LihLoadsHighHalf : Prop :=
  ∀ (rd : RegIdx) (imm : Half) (s : State),
    (∀ w, decode w = .ok (.lih rd imm) ↔ w = rawWord 0x02 rd 0 0 0 imm) ∧
    ∃ (t : State) (v : Word), exec (.lih rd imm) s = .next t ∧
      v.toNat = imm.toNat * 2 ^ 16 + (s.reg rd).toNat % 2 ^ 16 ∧ Wrote s t (some (rd, v)) none

/-- R106. Its first clause says which word it is. -/
def Obligations.ChkidComparesLowByte : Prop :=
  ∀ (rs1 : RegIdx) (s : State),
    (∀ w, decode w = .ok (.chkid rs1) ↔ w = rawWord 0x03 0 rs1 0 0 0) ∧
    ((s.reg rs1).toNat % 256 = 0xE5 → ∃ t, exec (.chkid rs1) s = .next t ∧ Wrote s t none none) ∧
    ((s.reg rs1).toNat % 256 ≠ 0xE5 → exec (.chkid rs1) s = .next (afterFailure s 3#3))

/-! ### Bit-field codec (41_codec.md) -/

/-- R121. Its first clause says which word it is. -/
def Obligations.EncrngEncodesRangeOrFails : Prop :=
  ∀ (rd rs1 : RegIdx) (s : State),
    (∀ w, decode w = .ok (.encrng rd rs1) ↔ w = rawWord 0x04 rd rs1 0 0 0) ∧
    (∀ p ∈ rangeCodes, (s.reg rs1).toNat = p.1 →
      ∃ t, exec (.encrng rd rs1) s = .next t ∧ Wrote s t (some (rd, BitVec.ofNat 32 p.2)) none) ∧
    ((∀ p ∈ rangeCodes, (s.reg rs1).toNat ≠ p.1) → exec (.encrng rd rs1) s = .next (afterFailure s 2#3))

/-- R122. Its first clause says which word it is. -/
def Obligations.DecrngDecodesRangeOrUnrec : Prop :=
  ∀ (rd rs1 : RegIdx) (s : State),
    (∀ w, decode w = .ok (.decrng rd rs1) ↔ w = rawWord 0x05 rd rs1 0 0 0) ∧
    (∀ p ∈ rangeCodes, (s.reg rs1).toNat = p.2 →
      ∃ t, exec (.decrng rd rs1) s = .next t ∧ Wrote s t (some (rd, BitVec.ofNat 32 p.1)) none) ∧
    (3 < (s.reg rs1).toNat →
      ∃ t, exec (.decrng rd rs1) s = .next t ∧ Wrote s t (some (rd, 0xFFFFFFFF#32)) none)

/-- R124. Its first clause says which word it is. -/
def Obligations.EncdrEncodesRateOrFails : Prop :=
  ∀ (rd rs1 : RegIdx) (s : State),
    (∀ w, decode w = .ok (.encdr rd rs1) ↔ w = rawWord 0x06 rd rs1 0 0 0) ∧
    ((s.reg rs1).toNat ≤ 15 → ∃ t, exec (.encdr rd rs1) s = .next t ∧ Wrote s t (some (rd, s.reg rs1)) none) ∧
    (15 < (s.reg rs1).toNat → exec (.encdr rd rs1) s = .next (afterFailure s 2#3))

/-- R125. Its first clause says which word it is. -/
def Obligations.DecdrDecodesRateOrUnrec : Prop :=
  ∀ (rd rs1 : RegIdx) (s : State),
    (∀ w, decode w = .ok (.decdr rd rs1) ↔ w = rawWord 0x07 rd rs1 0 0 0) ∧
    ((s.reg rs1).toNat ≤ 15 → ∃ t, exec (.decdr rd rs1) s = .next t ∧ Wrote s t (some (rd, s.reg rs1)) none) ∧
    (15 < (s.reg rs1).toNat → ∃ t, exec (.decdr rd rs1) s = .next t ∧ Wrote s t (some (rd, 0xFFFFFFFF#32)) none)

/-- R126. Its first clause says which word it is. The mapping is the one of R46 and D14, which the spec takes from general knowledge (log 10). -/
def Obligations.EncwkEncodesWakeOrFails : Prop :=
  ∀ (rd rs1 : RegIdx) (s : State),
    (∀ w, decode w = .ok (.encwk rd rs1) ↔ w = rawWord 0x08 rd rs1 0 0 0) ∧
    (∀ p ∈ wakeCodes, (s.reg rs1).toNat = p.1 →
      ∃ t, exec (.encwk rd rs1) s = .next t ∧ Wrote s t (some (rd, BitVec.ofNat 32 p.2)) none) ∧
    ((∀ p ∈ wakeCodes, (s.reg rs1).toNat ≠ p.1) → exec (.encwk rd rs1) s = .next (afterFailure s 2#3))

/-- R127. Its first clause says which word it is. The mapping is the one of R46 and D14, which the spec takes from general knowledge (log 10). -/
def Obligations.DecwkDecodesWakeOrUnrec : Prop :=
  ∀ (rd rs1 : RegIdx) (s : State),
    (∀ w, decode w = .ok (.decwk rd rs1) ↔ w = rawWord 0x09 rd rs1 0 0 0) ∧
    (∀ p ∈ wakeCodes, (s.reg rs1).toNat = p.2 →
      ∃ t, exec (.decwk rd rs1) s = .next t ∧ Wrote s t (some (rd, BitVec.ofNat 32 p.1)) none) ∧
    (3 < (s.reg rs1).toNat →
      ∃ t, exec (.decwk rd rs1) s = .next t ∧ Wrote s t (some (rd, 0xFFFFFFFF#32)) none)

/-- R128. Its first clause says which word it is. -/
def Obligations.SetrngComposesDataFormat : Prop :=
  ∀ (rd rs1 rs2 : RegIdx) (s : State),
    (∀ w, decode w = .ok (.setrng rd rs1 rs2) ↔ w = rawWord 0x0A rd rs1 rs2 0 0) ∧
    (∀ p ∈ rangeCodes, (s.reg rs2).toNat = p.1 →
      ∃ t, exec (.setrng rd rs1 rs2) s = .next t ∧
        Wrote s t (some (rd, BitVec.ofNat 32 ((s.reg rs1).toNat % 256 / 4 * 4 + p.2))) none) ∧
    ((∀ p ∈ rangeCodes, (s.reg rs2).toNat ≠ p.1) → exec (.setrng rd rs1 rs2) s = .next (afterFailure s 2#3))

/-- R129. Its first clause says which word it is. -/
def Obligations.SetdrComposesBwRate : Prop :=
  ∀ (rd rs1 rs2 : RegIdx) (s : State),
    (∀ w, decode w = .ok (.setdr rd rs1 rs2) ↔ w = rawWord 0x0B rd rs1 rs2 0 0) ∧
    ((s.reg rs2).toNat ≤ 15 →
      ∃ t, exec (.setdr rd rs1 rs2) s = .next t ∧
        Wrote s t (some (rd, BitVec.ofNat 32 ((s.reg rs1).toNat % 256 / 16 * 16 + (s.reg rs2).toNat))) none) ∧
    (15 < (s.reg rs2).toNat → exec (.setdr rd rs1 rs2) s = .next (afterFailure s 2#3))

/-- R130. Its first clause says which word it is. -/
def Obligations.SetfrSetsBit3ToOn : Prop :=
  ∀ (rd rs1 : RegIdx) (on : Bool) (s : State),
    (∀ w, decode w = .ok (.setfr rd rs1 on) ↔ w = rawWord 0x0C rd rs1 0 0 (if on then 1 else 0)) ∧
    ∃ (t : State) (v : Word), exec (.setfr rd rs1 on) s = .next t ∧
      (∀ j, v.getLsbD j = if j = 3 then on else (decide (j < 8) && (s.reg rs1).getLsbD j)) ∧
      Wrote s t (some (rd, v)) none

/-- R131. Its first clause says which word it is. -/
def Obligations.SetstSetsBit7ToOn : Prop :=
  ∀ (rd rs1 : RegIdx) (on : Bool) (s : State),
    (∀ w, decode w = .ok (.setst rd rs1 on) ↔ w = rawWord 0x0D rd rs1 0 0 (if on then 1 else 0)) ∧
    ∃ (t : State) (v : Word), exec (.setst rd rs1 on) s = .next t ∧
      (∀ j, v.getLsbD j = if j = 7 then on else (decide (j < 8) && (s.reg rs1).getLsbD j)) ∧
      Wrote s t (some (rd, v)) none

/-- R132. Its first clause says which word it is. The wake codes and their position are those of D14 (log 10). -/
def Obligations.CpwrComposesPowerControl : Prop :=
  ∀ (rd rs1 rs2 : RegIdx) (enable : Bool) (s : State),
    (∀ w, decode w = .ok (.cpwr rd rs1 rs2 enable) ↔ w = rawWord 0x0E rd rs1 rs2 0 (if enable then 1 else 0)) ∧
    (enable = true → ∀ p ∈ wakeCodes, (s.reg rs2).toNat = p.1 →
      ∃ (t : State) (v : Word), exec (.cpwr rd rs1 rs2 enable) s = .next t ∧
        (∀ j, v.getLsbD j =
          if j = 4 then true else if j < 2 then p.2.testBit j else (decide (j < 8) && (s.reg rs1).getLsbD j)) ∧
        Wrote s t (some (rd, v)) none) ∧
    (enable = true → (∀ p ∈ wakeCodes, (s.reg rs2).toNat ≠ p.1) →
      exec (.cpwr rd rs1 rs2 enable) s = .next (afterFailure s 2#3)) ∧
    (enable = false → ∃ t, exec (.cpwr rd rs1 rs2 enable) s = .next t ∧ Wrote s t (some (rd, 0#32)) none)

/-- R133. Its first clause says which word it is. -/
def Obligations.SetmsSetsBit3 : Prop :=
  ∀ (rd rs1 : RegIdx) (s : State),
    (∀ w, decode w = .ok (.setms rd rs1) ↔ w = rawWord 0x0F rd rs1 0 0 0) ∧
    ∃ (t : State) (v : Word), exec (.setms rd rs1) s = .next t ∧
      (∀ j, v.getLsbD j = if j = 3 then true else (decide (j < 8) && (s.reg rs1).getLsbD j)) ∧
      Wrote s t (some (rd, v)) none

/-- R134. Its first clause says which word it is. -/
def Obligations.MergeTakesMaskedBits : Prop :=
  ∀ (rd rs1 rs2 : RegIdx) (mask : Byte) (s : State),
    (∀ w, decode w = .ok (.merge rd rs1 rs2 mask) ↔ w = rawWord 0x10 rd rs1 rs2 0 (BitVec.ofNat 16 mask.toNat)) ∧
    ∃ (t : State) (v : Word), exec (.merge rd rs1 rs2 mask) s = .next t ∧
      (∀ j, v.getLsbD j =
        (decide (j < 8) && (if mask.getLsbD j then (s.reg rs2).getLsbD j else (s.reg rs1).getLsbD j))) ∧
      Wrote s t (some (rd, v)) none

/-! ### Converter (42_converter.md) -/

/-- R170. Its first clause says which word it is. -/
def Obligations.LdrawComposesSignedSample : Prop :=
  ∀ (rd rs1 rs2 : RegIdx) (s : State),
    (∀ w, decode w = .ok (.ldraw rd rs1 rs2) ↔ w = rawWord 0x11 rd rs1 rs2 0 0) ∧
    ∃ (t : State) (v : Word), exec (.ldraw rd rs1 rs2) s = .next t ∧
      v.toInt =
        (if (s.reg rs2).toNat % 256 < 128 then 0 else -65536) +
          256 * ((s.reg rs2).toNat % 256 : Int) + ((s.reg rs1).toNat % 256 : Int) ∧
      Wrote s t (some (rd, v)) none

/-- R172. Its first clause says which word it is. -/
def Obligations.ConvRoundsToQ16 : Prop :=
  ∀ (rd rs1 : RegIdx) (s : State),
    (∀ w, decode w = .ok (.conv rd rs1) ↔ w = rawWord 0x12 rd rs1 0 0 0) ∧
    ∃ (t : State) (v : Word), exec (.conv rd rs1) s = .next t ∧
      IsConverted (BitVec.ofNat 16 (s.reg rs1).toNat).toInt v.toInt ∧ Wrote s t (some (rd, v)) none

/-! ### Filter (43_filter.md) -/

/-- R190. Its first clause says which word it is. -/
def Obligations.SeedDefinesAxis : Prop :=
  ∀ (a : Axis) (rs1 : RegIdx) (s : State),
    (∀ w, decode w = .ok (.seed (axisFieldOf a) rs1) ↔ w = rawWord 0x13 0 rs1 0 (axisFieldOf a) 0) ∧
    (∀ w, decode w ≠ .ok (.seed 3#2 rs1)) ∧
    ∃ t, exec (.seed (axisFieldOf a) rs1) s = .next t ∧ Wrote s t none (some (a, s.reg rs1, true))

/-- R195. Its first clause says which word it is. -/
def Obligations.SmoothFiltersSample : Prop :=
  ∀ (a : Axis) (rd rs1 : RegIdx) (weight : Half) (s : State),
    (∀ w, decode w = .ok (.smooth rd rs1 (axisFieldOf a) weight) ↔ w = rawWord 0x14 rd rs1 0 (axisFieldOf a) weight) ∧
    (∀ w, decode w ≠ .ok (.smooth rd rs1 3#2 weight)) ∧
    (s.fvOf a = true →
      ∃ (t : State) (v : Word), exec (.smooth rd rs1 (axisFieldOf a) weight) s = .next t ∧
        IsSmoothed (s.reg rs1).toInt (s.filtOf a).toInt weight v.toInt ∧ Wrote s t (some (rd, v)) (some (a, v, true))) ∧
    (s.fvOf a = false → exec (.smooth rd rs1 (axisFieldOf a) weight) s = .next (afterFailure s 4#3))

/-- R196. Its first clause says which word it is. -/
def Obligations.SampleConvertsThenFilters : Prop :=
  ∀ (a : Axis) (rd rs1 : RegIdx) (weight : Half) (s : State),
    (∀ w, decode w = .ok (.sample rd rs1 (axisFieldOf a) weight) ↔ w = rawWord 0x17 rd rs1 0 (axisFieldOf a) weight) ∧
    (∀ w, decode w ≠ .ok (.sample rd rs1 3#2 weight)) ∧
    (s.fvOf a = true →
      ∃ (t : State) (p : Int) (v : Word), exec (.sample rd rs1 (axisFieldOf a) weight) s = .next t ∧
        IsConverted (BitVec.ofNat 16 (s.reg rs1).toNat).toInt p ∧
        IsSmoothed p (s.filtOf a).toInt weight v.toInt ∧ Wrote s t (some (rd, v)) (some (a, v, true))) ∧
    (s.fvOf a = false → exec (.sample rd rs1 (axisFieldOf a) weight) s = .next (afterFailure s 4#3))

/-- R197, its command part; the window read it mentions is R55. Its first clause says which word it is. -/
def Obligations.RdfiltReadsSeededAxis : Prop :=
  ∀ (a : Axis) (rd : RegIdx) (s : State),
    (∀ w, decode w = .ok (.rdfilt rd (axisFieldOf a)) ↔ w = rawWord 0x15 rd 0 0 (axisFieldOf a) 0) ∧
    (∀ w, decode w ≠ .ok (.rdfilt rd 3#2)) ∧
    (s.fvOf a = true →
      ∃ t, exec (.rdfilt rd (axisFieldOf a)) s = .next t ∧ Wrote s t (some (rd, s.filtOf a)) none) ∧
    (s.fvOf a = false → exec (.rdfilt rd (axisFieldOf a)) s = .next (afterFailure s 4#3)) ∧
    (∀ rest, step { s with hostIn := hostRead (0x28 + 4 * (axisIndex a).val) :: rest } =
      .next { s with hostIn := rest, hostOut := s.hostOut ++ [s.filtOf a] })

/-- R198. Its first clause says which word it is. Its corner case, that on an unseeded axis nothing changes, holds in states that meet the invariant (R55: an unseeded
axis holds the pattern 0) and is the last clause. -/
def Obligations.ClrfiltDiscardsAxis : Prop :=
  ∀ (a : Axis) (s : State),
    (∀ w, decode w = .ok (.clrfilt (axisFieldOf a)) ↔ w = rawWord 0x16 0 0 0 (axisFieldOf a) 0) ∧
    (∀ w, decode w ≠ .ok (.clrfilt 3#2)) ∧
    (∃ t, exec (.clrfilt (axisFieldOf a)) s = .next t ∧ Wrote s t none (some (a, 0#32, false))) ∧
    (Inv s → s.fvOf a = false → ∃ t, exec (.clrfilt (axisFieldOf a)) s = .next t ∧ Wrote s t none none)

/-! ### STATUS and errors (60_exceptions.md section 3, 10_state.md section 5) -/

/-- R231 and R31, over every word written to CMD; which error a word raises is `wordError`, from R221 to R225 and R228. -/
def Obligations.EveryCommandUpdatesStatus : Prop :=
  ∀ (w : Word) (s : State), ∃ t, runWord w s = .next t ∧
    (wordError s w = none → t.lastf = false ∧ t.err = s.err) ∧
    (∀ c, wordError s w = some c → t.lastf = true ∧ t.err = if s.err = 0#3 then c.code else s.err)

/-- R230, over every word written to CMD. -/
def Obligations.FailedCommandChangesOnlyStatus : Prop :=
  ∀ (w : Word) (s : State) (c : CmdError), wordError s w = some c →
    ∃ t, runWord w s = .next t ∧ t.regs = s.regs ∧ t.filt = s.filt ∧ t.fv = s.fv ∧ t.hostIn = s.hostIn ∧
      t.hostOut = s.hostOut

/-- R30, over every word written to CMD. -/
def Obligations.ErrIsWrittenOnlyWhenZero : Prop :=
  ∀ (w : Word) (s t : State), runWord w s = .next t →
    (s.err ≠ 0#3 → t.err = s.err) ∧ (t.err ≠ s.err → 1 ≤ t.err.toNat ∧ t.err.toNat ≤ 4) ∧
    (s.err = 0#3 → ∀ c, wordError s w = some c → t.err = c.code) ∧ (s.err.toNat ≤ 4 → t.err.toNat ≤ 4)

/-- R29, R32 and R33. -/
def Obligations.StatusReadsAndClears : Prop :=
  ∀ (s : State) (rest : List HostEvent),
    (∃ v : Word,
      v.toNat = s.err.toNat + 8 * s.lastf.toNat + 16 * (s.fvOf .x).toNat + 32 * (s.fvOf .y).toNat +
        64 * (s.fvOf .z).toNat ∧
      step { s with hostIn := hostRead 0x04 :: rest } =
        .next { s with hostIn := rest, hostOut := s.hostOut ++ [v] }) ∧
    ∀ data : Word, step { s with hostIn := hostWrite 0x04 data :: rest } =
      .next { s with hostIn := rest, err := 0#3, lastf := false }

/-! ### The whole machine -/

/-- R34 and R80; that the host's accesses stand in `hostIn` is log 1, that a step with none pending changes nothing is log 2, and
`withFetchWord` is log 4 (the model's choices). -/
def Obligations.CmdWriteRunsDecodedCommand : Prop :=
  ∀ (s : State) (rest : List HostEvent) (w : Word),
    (∀ i, decode w = .ok i →
      step { s with hostIn := hostWrite 0x00 w :: rest } = exec i { s with hostIn := rest } ∧
      step (s.withFetchWord 32 w.toNat) = exec i s) ∧
    (∀ e, decode w = .error e →
      step { s with hostIn := hostWrite 0x00 w :: rest } = .next (afterFailure { s with hostIn := rest } 1#3)) ∧
    step { s with hostIn := hostRead 0x00 :: rest } =
      .next { s with hostIn := rest, hostOut := s.hostOut ++ [0#32] } ∧
    step { s with hostIn := [] } = .next { s with hostIn := [] }

/-- The first half of the invariant claim: R38's state meets it. -/
def Obligations.InvariantHoldsAtReset : Prop :=
  Inv State.reset

/-- R30 (ERR is 0 to 4), R231 with R32 (a failure LASTF still shows has left a code in ERR) and R55 (an undefined FILT holds 0),
from every state that meets them and over every host event. -/
def Obligations.StepKeepsInvariant : Prop :=
  ∀ s t : State, Inv s → step s = .next t → Inv t

/-- R27. -/
def Obligations.ValidBitChangesOnlyBySeedOrClear : Prop :=
  (∀ (s t : State) (a : Axis), step s = .next t →
    (s.fvOf a = false → t.fvOf a = true →
      ∃ rest, (∃ w rs1, s.hostIn = hostWrite 0x00 w :: rest ∧ decode w = .ok (.seed (axisFieldOf a) rs1)) ∨
        (∃ v, s.hostIn = hostWrite (0x28 + 4 * (axisIndex a).val) v :: rest)) ∧
    (s.fvOf a = true → t.fvOf a = false →
      ∃ rest, (∃ w, s.hostIn = hostWrite 0x00 w :: rest ∧ decode w = .ok (.clrfilt (axisFieldOf a))) ∨
        s.hostIn = HostEvent.reset :: rest)) ∧
  ∀ (s : State) (a : Axis) (rd rs1 : RegIdx) (weight : Half), s.fvOf a = false →
    exec (.smooth rd rs1 (axisFieldOf a) weight) s = .next (afterFailure s 4#3) ∧
    exec (.sample rd rs1 (axisFieldOf a) weight) s = .next (afterFailure s 4#3) ∧
    exec (.rdfilt rd (axisFieldOf a)) s = .next (afterFailure s 4#3)

/-- R25, its sentence "No command reads STATUS.ERR or STATUS.LASTF", over every command. -/
def Obligations.CommandsDoNotReadStatus : Prop :=
  ∀ (i : Instr) (s t : State), AgreeButStatus s t →
    ∃ s' t', exec i s = .next s' ∧ exec i t = .next t' ∧ AgreeButStatus s' t' ∧ s'.lastf = t'.lastf

/-- R199, its sentence "The commands of one axis never read or write another axis's FILT or FV". -/
def Obligations.AxesAreIndependent : Prop :=
  ∀ (b : Axis) (i : Instr) (s t : State), i.axisField? ≠ some (axisFieldOf b) → AgreeButAxis b s t →
    ∃ s' t', exec i s = .next s' ∧ exec i t = .next t' ∧ AgreeButAxis b s' t' ∧
      s'.filtOf b = s.filtOf b ∧ s'.fvOf b = s.fvOf b

/-- R22 (at most the one register RD names), R27 and the command rules: the frame of every command. Only LASTF, and ERR where it
was 0, may change besides. -/
def Obligations.CommandFrame : Prop :=
  ∀ (i : Instr) (s t : State), exec i s = .next t →
    (∀ r, destReg i ≠ some r → t.reg r = s.reg r) ∧
    (∀ a, filtWritten i ≠ some a → t.filtOf a = s.filtOf a) ∧
    (∀ a, fvWritten i ≠ some a → t.fvOf a = s.fvOf a) ∧
    (s.err ≠ 0#3 → t.err = s.err) ∧ t.hostIn = s.hostIn ∧ t.hostOut = s.hostOut

/-- R85 and R28 for terms of `Instr` that no word decodes to; that `exec` gives them this outcome too is the model's choice, log 9. -/
def Obligations.IllFormedCommandsAreIllegal : Prop :=
  ∀ (i : Instr) (s : State), ¬ WellFormed i →
    exec i s = .next (afterFailure s 1#3) ∧ ∀ w, decode w ≠ .ok i

/-! ### Reset and the host window (10_state.md R38, 20_memory.md section 2, 70_reset_and_hazards.md R260) -/

/-- From R38 and R260, which give the values of the block's state after reset, also after a reset during an access. That a
reset is an event between two accesses, and that it keeps `hostIn` and `hostOut`, is the model's choice (DESIGN CHOICE,
log 7), and neither rule says it. -/
def Obligations.ResetZeroesTheBlock : Prop :=
  ((∀ r, State.reset.reg r = 0#32) ∧ (∀ a, State.reset.filtOf a = 0#32 ∧ State.reset.fvOf a = false) ∧
    State.reset.err = 0#3 ∧ State.reset.lastf = false ∧ State.reset.statusWord = 0#32) ∧
  ∀ (s : State) (rest : List HostEvent),
    step { s with hostIn := HostEvent.reset :: rest } =
      .next { State.reset with hostIn := rest, hostOut := s.hostOut } ∧
    ∀ e, eventDefined e = true → ∃ u, step { s with hostIn := e :: HostEvent.reset :: rest } = .next u ∧
      step u = .next { State.reset with hostIn := rest, hostOut := u.hostOut }

/-- R54, at the offsets of R52. -/
def Obligations.HostReadsAndWritesOperandRegisters : Prop :=
  ∀ (s : State) (rest : List HostEvent) (i : RegIdx),
    step { s with hostIn := hostRead (0x08 + 4 * i.toNat) :: rest } =
      .next { s with hostIn := rest, hostOut := s.hostOut ++ [s.reg i] } ∧
    ∀ v : Word, ∃ t, step { s with hostIn := hostWrite (0x08 + 4 * i.toNat) v :: rest } = .next t ∧
      (∀ r, t.reg r = if r = i then v else s.reg r) ∧ t.filt = s.filt ∧ t.fv = s.fv ∧ t.err = s.err ∧
      t.lastf = s.lastf ∧ t.hostIn = rest ∧ t.hostOut = s.hostOut

/-- R55. -/
def Obligations.HostReadsAndWritesFilterRegisters : Prop :=
  ∀ (s : State) (rest : List HostEvent) (a : Axis),
    step { s with hostIn := hostRead (0x28 + 4 * (axisIndex a).val) :: rest } =
      .next { s with hostIn := rest, hostOut := s.hostOut ++ [s.filtOf a] } ∧
    (∀ v : Word, ∃ t, step { s with hostIn := hostWrite (0x28 + 4 * (axisIndex a).val) v :: rest } = .next t ∧
      (∀ b, (t.filtOf b, t.fvOf b) = if b = a then (v, true) else (s.filtOf b, s.fvOf b)) ∧ t.regs = s.regs ∧
      t.err = s.err ∧ t.lastf = s.lastf ∧ t.hostIn = rest ∧ t.hostOut = s.hostOut ∧
      ∀ (rs1 : RegIdx) (u : State), s.reg rs1 = v → exec (.seed (axisFieldOf a) rs1) s = .next u →
        t.filt = u.filt ∧ t.fv = u.fv) ∧
    State.reset.filtOf a = 0#32 ∧ ∃ u, exec (.clrfilt (axisFieldOf a)) s = .next u ∧ u.filtOf a = 0#32

/-- R35 and R36. -/
def Obligations.DeviceMapRegistersAreConstant : Prop :=
  deviceAddress .dataFormat ++ deviceAddress .powerCtl ++ deviceAddress .bwRate ++ deviceAddress .devid =
    (0x312D2C00#32 : BitVec (8 + 8 + 8 + 8)) ∧
  expectedDevid ++ deviceAddress .dataz0 ++ deviceAddress .datay0 ++ deviceAddress .datax0 =
    (0xE5363432#32 : BitVec (8 + 8 + 8 + 8)) ∧
  ∀ (s : State) (rest : List HostEvent),
    step { s with hostIn := hostRead 0x40 :: rest } =
      .next { s with hostIn := rest, hostOut := s.hostOut ++ [0x312D2C00#32] } ∧
    step { s with hostIn := hostRead 0x44 :: rest } =
      .next { s with hostIn := rest, hostOut := s.hostOut ++ [0xE5363432#32] } ∧
    ∀ v : Word, step { s with hostIn := hostWrite 0x40 v :: rest } = .next { s with hostIn := rest } ∧
      step { s with hostIn := hostWrite 0x44 v :: rest } = .next { s with hostIn := rest }

/-- R57, at the reserved offsets of R52. -/
def Obligations.ReservedOffsetsReadZeroIgnoreWrites : Prop :=
  ∀ (s : State) (rest : List HostEvent) (off : Nat), off % 4 = 0 →
    ((0x34 ≤ off ∧ off ≤ 0x3C) ∨ (0x48 ≤ off ∧ off ≤ 0xFC)) →
    step { s with hostIn := hostRead off :: rest } =
      .next { s with hostIn := rest, hostOut := s.hostOut ++ [0#32] } ∧
    ∀ v : Word, step { s with hostIn := hostWrite off v :: rest } = .next { s with hostIn := rest }

/-- From R56. That alignment is that of the window offset, whatever HOST_BASE is, is the model's choice (DESIGN CHOICE,
log 16). That an aligned 32-bit access outside the window is refused like the others is log 6. -/
def Obligations.UndefinedAccessesHaveNoStep : Prop :=
  ∀ (s : State) (rest : List HostEvent) (a : HostAccess),
    (step { s with hostIn := .access a :: rest } = .refused .hostBadAccess ↔
      ¬ (a.bytes = 4 ∧ a.offset % 4 = 0 ∧ 0 ≤ a.offset ∧ a.offset < 256)) ∧
    ((∃ t, step { s with hostIn := .access a :: rest } = .next t) ↔
      (a.bytes = 4 ∧ a.offset % 4 = 0 ∧ 0 ≤ a.offset ∧ a.offset < 256))

/-- From R51. HOST_BASE is opaque, so this holds for every base, and host addresses do not wrap: the model's choice (DESIGN
CHOICE, log 5). That every one of the word slots is defined also when HOST_BASE is no multiple of 4 is the model's choice
too (DESIGN CHOICE, log 16). -/
def Obligations.WindowStartsAtHostBase : Prop :=
  ∀ (addr off : Nat) (k : AccessKind),
    definedOffset (accessAt addr 4 k) = some off ↔ addr = Config.hostBase + off ∧ off % 4 = 0 ∧ off < 256

/-- R286 and R232 (a failed command does not end a run) and R71 (each access completes, in order), over the queue of log 1. -/
def Obligations.ObedientHostIsServedToTheEnd : Prop :=
  ∀ s : State, hostObedient s = true →
    ∃ t, Host.Core.run Sys2Proof.core s.hostIn.length s = .next t ∧ t.hostIn = []

/-! ### Laws of the spec -/

/-- R135, which the spec marks as derived from the command rules: "For every g in 2, 4, 8, 16: ENCRNG then DECRNG returns g", and
so on. The wake mapping is log 10. -/
def Obligations.CodecRoundTrips : Prop :=
  ∀ (rd rd' rs1 : RegIdx) (s : State),
    ((∃ p ∈ rangeCodes, (s.reg rs1).toNat = p.1) →
      ∃ t, execAll [.encrng rd rs1, .decrng rd' rd] s = .next t ∧ t.reg rd' = s.reg rs1) ∧
    ((s.reg rs1).toNat ≤ 3 →
      ∃ t, execAll [.decrng rd rs1, .encrng rd' rd] s = .next t ∧ t.reg rd' = s.reg rs1) ∧
    ((s.reg rs1).toNat ≤ 15 →
      (∃ t, execAll [.encdr rd rs1, .decdr rd' rd] s = .next t ∧ t.reg rd' = s.reg rs1) ∧
      ∃ t, execAll [.decdr rd rs1, .encdr rd' rd] s = .next t ∧ t.reg rd' = s.reg rs1) ∧
    ((∃ p ∈ wakeCodes, (s.reg rs1).toNat = p.1) →
      ∃ t, execAll [.encwk rd rs1, .decwk rd' rd] s = .next t ∧ t.reg rd' = s.reg rs1) ∧
    ((s.reg rs1).toNat ≤ 3 →
      ∃ t, execAll [.decwk rd rs1, .encwk rd' rd] s = .next t ∧ t.reg rd' = s.reg rs1)

/-- R49, with the masks of `rmwOwnership`; the positions of WAKEUP are log 10. -/
def Obligations.RmwCommandsKeepUnownedBits : Prop :=
  (∀ (i : Instr) (rd rs1 : RegIdx) (mask : Byte) (s : State), rmwOwnership i = some (rd, rs1, mask) →
    errorOf s i = none →
    ∃ t, exec i s = .next t ∧
      (∀ j, j < 8 → mask.getLsbD j = false → (t.reg rd).getLsbD j = (s.reg rs1).getLsbD j) ∧
      ∀ j, 8 ≤ j → (t.reg rd).getLsbD j = false) ∧
  ∀ (rd rs1 rs2 : RegIdx) (s : State),
    ∃ t, exec (.cpwr rd rs1 rs2 false) s = .next t ∧ t.reg rd = 0#32

/-- R173, R174 and R175, which the spec marks as derived from R172: rounding to nearest with no tie (so within 2^-17 of the exact
value of R171), range, CONV(0), CONV(256), odd symmetry, monotony. `ConvRoundsToQ16` ties the function to the command. -/
def Obligations.ConversionLaws : Prop :=
  toPhysical 0 = 0 ∧ toPhysical 256 = 642689 ∧
  (∀ r : Int, 2 * |625 * toPhysical r - r * 1569064| < 625) ∧
  (∀ r : Int, |25600000 * toPhysical r - 65536 * (r * 980665)| * 2 ^ 17 ≤ 65536 * 25600000) ∧
  (∀ r : Int, -32768 ≤ r → r ≤ 32767 → -82264143 ≤ toPhysical r ∧ toPhysical r ≤ 82261632) ∧
  (∀ r : Int, toPhysical (-r) = - toPhysical r) ∧
  (∀ r r' : Int, r ≤ r' → toPhysical r ≤ toPhysical r') ∧
  ∀ (rd rs1 : RegIdx) (s : State), ∃ t, exec (.conv rd rs1) s = .next t ∧
    (t.reg rd).toInt = toPhysical (BitVec.ofNat 16 (s.reg rs1).toNat).toInt

/-- R194 (a) to (e), which the spec marks as derived from R192 and R193, and R193's 48-bit accumulator. `SmoothFiltersSample`
ties the function to the command. -/
def Obligations.SmoothingLaws : Prop :=
  (∀ (x y : Int) (imm : Half), weightQ imm = 16384 → smoothFx x y imm = x) ∧
  (∀ (x y : Int) (imm : Half), weightQ imm = 0 → smoothFx x y imm = y) ∧
  (∀ (x : Int) (imm : Half), smoothFx x x imm = x) ∧
  (∀ (x y : Int) (imm : Half), min x y ≤ smoothFx x y imm ∧ smoothFx x y imm ≤ max x y) ∧
  (∀ (x y : Int) (imm : Half),
    -8192 ≤ x * weightQ imm + y * (16384 - weightQ imm) - 16384 * smoothFx x y imm ∧
    x * weightQ imm + y * (16384 - weightQ imm) - 16384 * smoothFx x y imm < 8192) ∧
  ∀ (x y : Word) (imm : Half), ∀ v ∈ [x.toInt * weightQ imm, y.toInt * (16384 - weightQ imm),
      x.toInt * weightQ imm + y.toInt * (16384 - weightQ imm),
      x.toInt * weightQ imm + y.toInt * (16384 - weightQ imm) + 8192], -2 ^ 47 ≤ v ∧ v < (2 ^ 47 : Int)

/-- R277 and R278. -/
def Obligations.ExtremeWeightsFreezeOrPass : Prop :=
  ∀ (a : Axis) (rd rs1 : RegIdx) (weight : Half) (s : State), s.fvOf a = true →
    (weight.toInt ≤ 0 →
      (∃ t, exec (.smooth rd rs1 (axisFieldOf a) weight) s = .next t ∧
        Wrote s t (some (rd, s.filtOf a)) (some (a, s.filtOf a, true))) ∧
      ∃ t, exec (.sample rd rs1 (axisFieldOf a) weight) s = .next t ∧
        Wrote s t (some (rd, s.filtOf a)) (some (a, s.filtOf a, true))) ∧
    (16384 ≤ weight.toInt →
      (∃ t, exec (.smooth rd rs1 (axisFieldOf a) weight) s = .next t ∧
        Wrote s t (some (rd, s.reg rs1)) (some (a, s.reg rs1, true))) ∧
      ∃ t u, exec (.sample rd rs1 (axisFieldOf a) weight) s = .next t ∧ exec (.conv rd rs1) s = .next u ∧
        Wrote s t (some (rd, u.reg rd)) (some (a, u.reg rd, true)))

/-- R123. -/
def Obligations.UnrecIsRejectedByEveryEncoder : Prop :=
  (∀ (rd rs1 rs2 : RegIdx) (s : State), s.reg rs2 = 0xFFFFFFFF#32 →
    ∀ i ∈ [Instr.encrng rd rs2, .encdr rd rs2, .encwk rd rs2, .setrng rd rs1 rs2, .setdr rd rs1 rs2,
      .cpwr rd rs1 rs2 true], exec i s = .next (afterFailure s 2#3)) ∧
  ∀ (rd rs1 : RegIdx) (s : State),
    (3 < (s.reg rs1).toNat → ∀ i ∈ [Instr.decrng rd rs1, .decwk rd rs1],
      ∃ t, exec i s = .next t ∧ t.reg rd = 0xFFFFFFFF#32) ∧
    (15 < (s.reg rs1).toNat → ∃ t, exec (.decdr rd rs1) s = .next t ∧ t.reg rd = 0xFFFFFFFF#32)

/-- R200, its last sentence; the invariant supplies that an unseeded FILT holds 0. -/
def Obligations.SavedFilterStateIsRestored : Prop :=
  ∀ (s u : State) (a : Axis) (rest : List HostEvent),
    (s.fvOf a = true →
      ∃ t, step { u with hostIn := hostWrite (0x28 + 4 * (axisIndex a).val) (s.filtOf a) :: rest } = .next t ∧
        t.filtOf a = s.filtOf a ∧ t.fvOf a = s.fvOf a) ∧
    (Inv s → s.fvOf a = false →
      ∃ t, exec (.clrfilt (axisFieldOf a)) u = .next t ∧ t.filtOf a = s.filtOf a ∧ t.fvOf a = s.fvOf a)

/-! ### Assembler and the host's register access (30_encoding.md section 4, 20_memory.md section 3) -/

/-- R93. -/
def Obligations.PseudoInstructionsHaveTheirEffect : Prop :=
  ∀ (rd rs : RegIdx) (v : Word) (mask : Byte) (s : State),
    (expandLi32 rd v = [.li rd (BitVec.ofNat 16 v.toNat), .lih rd (BitVec.ofNat 16 (v.toNat / 2 ^ 16))] ∧
      ∃ t, execAll (expandLi32 rd v) s = .next t ∧ Wrote s t (some (rd, v)) none) ∧
    (expandPwroff rd = [.cpwr rd 0 0 false] ∧
      ∃ t, execAll (expandPwroff rd) s = .next t ∧ Wrote s t (some (rd, 0#32)) none) ∧
    (expandMovb rd rs = [.merge rd rs rs 255] ∧
      ∃ t, execAll (expandMovb rd rs) s = .next t ∧
        Wrote s t (some (rd, BitVec.ofNat 32 ((s.reg rs).toNat % 256))) none) ∧
    expandExtb rd rd mask = none ∧
    (rd ≠ rs → expandExtb rd rs mask = some [.li rd 0, .merge rd rd rs mask] ∧
      ∃ t x, execAll [.li rd 0, .merge rd rd rs mask] s = .next t ∧
        (∀ j, x.getLsbD j = (decide (j < 8) && (s.reg rs).getLsbD j && mask.getLsbD j)) ∧
        Wrote s t (some (rd, x)) none)

/-- R92. -/
def Obligations.WeightOperandsRoundToNearest : Prop :=
  (∀ n : Int, weightOf (.int n) = if -32768 ≤ n ∧ n ≤ 65535 then some (BitVec.ofInt 16 n) else none) ∧
  ∀ (d : Int) (k : Nat), ∃ n : Int,
    2 * |n * 10 ^ k - d * 16384| ≤ 10 ^ k ∧
    (2 * |n * 10 ^ k - d * 16384| = 10 ^ k → |d * 16384| < |n * 10 ^ k|) ∧
    weightOf (.decimal d k) = if -32768 ≤ n ∧ n ≤ 32767 then some (BitVec.ofInt 16 n) else none

/-- R95's last clause, which the spec derives: the assembler of R91 produces exactly the decodable words. -/
def Obligations.AssemblerYieldsTheDecodableWords : Prop :=
  ∀ w : Word, (∃ i, decode w = .ok i) ↔ ∃ m ops i, assembleCore m ops = some i ∧ encode i = w

/-- R61 and R63, the parts that do not speak of the bus or of the host, and R170's agreement with them. -/
def Obligations.ReadWordIsLittleEndianSigned : Prop :=
  (∀ lo hi : Byte, readWord (.ok (lo, hi)) =
    .ok ((if hi.toNat < 128 then 0 else -65536) + 256 * (hi.toNat : Int) + (lo.toNat : Int))) ∧
  (∀ (rd rs1 rs2 : RegIdx) (s : State) (lo hi : Byte), (s.reg rs1).toNat % 256 = lo.toNat →
    (s.reg rs2).toNat % 256 = hi.toNat →
    ∃ t, exec (.ldraw rd rs1 rs2) s = .next t ∧ readWord (.ok (lo, hi)) = .ok (t.reg rd).toInt) ∧
  ∀ (x y z : Except BusError (Byte × Byte)) (r : Int × Int × Int),
    readAxes x y z = .ok r ↔ readWord x = .ok r.1 ∧ readWord y = .ok r.2.1 ∧ readWord z = .ok r.2.2
end

