-- ==== Sys2Proof/Laws/Decode.lean ====
section
/-! SUPPORT. The fields of a command word: what `packWord` puts where, and the mask test of the opcode map as six tests of
fields. -/

namespace Sys2Proof

theorem append_toNat {n m : Nat} (x : BitVec n) (y : BitVec m) : (x ++ y).toNat = x.toNat * 2 ^ m + y.toNat := by
  rw [BitVec.toNat_append, ← Nat.shiftLeft_add_eq_or_of_lt y.isLt, Nat.shiftLeft_eq]

/-! ### packWord -/

section
variable (opc : BitVec 5) (rd rs1 rs2 : RegIdx) (ax : AxisField) (imm : Half)

/-- The sum of 30_encoding.md R95. -/
theorem packWord_toNat :
    (packWord opc rd rs1 rs2 ax imm).toNat =
      opc.toNat * 2 ^ 27 + rd.toNat * 2 ^ 24 + rs1.toNat * 2 ^ 21 + rs2.toNat * 2 ^ 18 + ax.toNat * 2 ^ 16 +
        imm.toNat := by
  simp only [packWord, append_toNat]
  omega

@[simp] theorem opcField_packWord : opcField (packWord opc rd rs1 rs2 ax imm) = opc := by
  apply BitVec.eq_of_toNat_eq
  rw [opcField, BitVec.extractLsb'_toNat, packWord_toNat, Nat.shiftRight_eq_div_pow]
  omega

@[simp] theorem rdField_packWord : rdField (packWord opc rd rs1 rs2 ax imm) = rd := by
  apply BitVec.eq_of_toNat_eq
  rw [rdField, BitVec.extractLsb'_toNat, packWord_toNat, Nat.shiftRight_eq_div_pow]
  omega

@[simp] theorem rs1Field_packWord : rs1Field (packWord opc rd rs1 rs2 ax imm) = rs1 := by
  apply BitVec.eq_of_toNat_eq
  rw [rs1Field, BitVec.extractLsb'_toNat, packWord_toNat, Nat.shiftRight_eq_div_pow]
  omega

@[simp] theorem rs2Field_packWord : rs2Field (packWord opc rd rs1 rs2 ax imm) = rs2 := by
  apply BitVec.eq_of_toNat_eq
  rw [rs2Field, BitVec.extractLsb'_toNat, packWord_toNat, Nat.shiftRight_eq_div_pow]
  omega

@[simp] theorem axField_packWord : axField (packWord opc rd rs1 rs2 ax imm) = ax := by
  apply BitVec.eq_of_toNat_eq
  rw [axField, BitVec.extractLsb'_toNat, packWord_toNat, Nat.shiftRight_eq_div_pow]
  omega

@[simp] theorem immField_packWord : immField (packWord opc rd rs1 rs2 ax imm) = imm := by
  apply BitVec.eq_of_toNat_eq
  rw [immField, BitVec.extractLsb'_toNat, packWord_toNat, Nat.shiftRight_eq_div_pow]
  omega

end

/-- A word is the packing of its six fields. -/
theorem packWord_fields (w : Word) :
    packWord (opcField w) (rdField w) (rs1Field w) (rs2Field w) (axField w) (immField w) = w := by
  apply BitVec.eq_of_toNat_eq
  rw [packWord_toNat]
  simp only [opcField, rdField, rs1Field, rs2Field, axField, immField, BitVec.extractLsb'_toNat,
    Nat.shiftRight_eq_div_pow]
  have := w.isLt
  omega

/-- Two words are equal when their six fields are. -/
theorem word_eq_iff_fields (v w : Word) :
    v = w ↔ opcField v = opcField w ∧ rdField v = rdField w ∧ rs1Field v = rs1Field w ∧ rs2Field v = rs2Field w ∧
      axField v = axField w ∧ immField v = immField w := by
  constructor
  · rintro rfl
    exact ⟨rfl, rfl, rfl, rfl, rfl, rfl⟩
  · rintro ⟨h1, h2, h3, h4, h5, h6⟩
    rw [← packWord_fields v, ← packWord_fields w, h1, h2, h3, h4, h5, h6]

/-! ### IMM1 and IMM8 -/

theorem imm1Field_eq (w : Word) : imm1Field w = (immField w).getLsbD 0 := by
  simp [imm1Field, immField]

theorem imm8Field_eq (w : Word) : imm8Field w = (immField w).extractLsb' 0 8 := by
  apply BitVec.eq_of_toNat_eq
  simp only [imm8Field, immField, BitVec.extractLsb'_toNat, Nat.shiftRight_eq_div_pow]
  omega

@[simp] theorem imm1Bits_getLsbD_zero (b : Bool) : (imm1Bits b).getLsbD 0 = b := by
  cases b <;> decide

@[simp] theorem imm1Bits_getElem_zero (b : Bool) : (imm1Bits b)[0] = b := by
  cases b <;> decide

@[simp] theorem imm8Bits_low (m : Byte) : (imm8Bits m).extractLsb' 0 8 = m := by
  apply BitVec.eq_of_getLsbD_eq
  intro i hi
  simp [imm8Bits, BitVec.getLsbD_setWidth, hi]
  omega

/-- An immediate with bits 15:1 zero is its one bit (R82). -/
theorem imm1Bits_of_mask {imm : Half} (h : imm &&& 0xFFFE#16 = 0#16) : imm1Bits (imm.getLsbD 0) = imm := by
  apply BitVec.eq_of_getLsbD_eq
  intro i hi
  have hb : (imm &&& 0xFFFE#16).getLsbD i = false := by simp [h]
  rw [BitVec.getLsbD_and] at hb
  interval_cases i <;> cases h0 : imm.getLsbD 0 <;> simp_all [imm1Bits]

/-- An immediate with bits 15:8 zero is its low byte (R82). -/
theorem imm8Bits_of_mask {imm : Half} (h : imm &&& 0xFF00#16 = 0#16) : imm8Bits (imm.extractLsb' 0 8) = imm := by
  apply BitVec.eq_of_getLsbD_eq
  intro i hi
  have hb : (imm &&& 0xFF00#16).getLsbD i = false := by simp [h]
  rw [BitVec.getLsbD_and] at hb
  interval_cases i <;> simp_all [imm8Bits]

/-! ### The mask test of the opcode map -/

/-- A field a row tests whole (its mask bits all 1). -/
@[simp] theorem and_full2 (x : BitVec 2) : x &&& 3#2 = x := BitVec.and_allOnes
@[simp] theorem and_full3 (x : BitVec 3) : x &&& 7#3 = x := BitVec.and_allOnes
@[simp] theorem and_full5 (x : BitVec 5) : x &&& 31#5 = x := BitVec.and_allOnes
@[simp] theorem and_full16 (x : BitVec 16) : x &&& 65535#16 = x := BitVec.and_allOnes

theorem opcField_and (v w : Word) : opcField (v &&& w) = opcField v &&& opcField w := by
  simp [opcField, BitVec.extractLsb'_and]
theorem rdField_and (v w : Word) : rdField (v &&& w) = rdField v &&& rdField w := by
  simp [rdField, BitVec.extractLsb'_and]
theorem rs1Field_and (v w : Word) : rs1Field (v &&& w) = rs1Field v &&& rs1Field w := by
  simp [rs1Field, BitVec.extractLsb'_and]
theorem rs2Field_and (v w : Word) : rs2Field (v &&& w) = rs2Field v &&& rs2Field w := by
  simp [rs2Field, BitVec.extractLsb'_and]
theorem axField_and (v w : Word) : axField (v &&& w) = axField v &&& axField w := by
  simp [axField, BitVec.extractLsb'_and]
theorem immField_and (v w : Word) : immField (v &&& w) = immField v &&& immField w := by
  simp [immField, BitVec.extractLsb'_and]

/-- The mask test, field by field. -/
theorem mask_iff_fields (w mask value : Word) :
    w &&& mask = value ↔
      opcField w &&& opcField mask = opcField value ∧ rdField w &&& rdField mask = rdField value ∧
      rs1Field w &&& rs1Field mask = rs1Field value ∧ rs2Field w &&& rs2Field mask = rs2Field value ∧
      axField w &&& axField mask = axField value ∧ immField w &&& immField mask = immField value := by
  rw [word_eq_iff_fields]
  simp only [opcField_and, rdField_and, rs1Field_and, rs2Field_and, axField_and, immField_and]

/-! ### The decoder -/

theorem rowOf_some {opc : BitVec 5} {r : OpcodeRow} (h : rowOf opc = some r) : r ∈ opcodeTable ∧ r.opc = opc := by
  refine ⟨List.mem_of_find?_eq_some h, ?_⟩
  have := List.find?_some h
  simpa using this

/-- Decoding by a known row. -/
theorem decode_of_row {w : Word} {r : OpcodeRow} (hr : rowOf (opcField w) = some r) (hm : w &&& r.mask = r.value)
    (ha : r.usesAx = true → axField w ≠ 3#2) : decode w = .ok (buildInstr r.mnemonic w) := by
  simp only [decode, hr, hm, ne_eq, not_true_eq_false, if_false]
  rw [if_neg]
  rintro ⟨h1, h2⟩
  exact ha h1 h2

/-- Everything a decoded word can be. -/
theorem decode_ok {w : Word} {i : Instr} (h : decode w = .ok i) :
    ∃ r, rowOf (opcField w) = some r ∧ w &&& r.mask = r.value ∧ (r.usesAx = true → axField w ≠ 3#2) ∧
      i = buildInstr r.mnemonic w := by
  unfold decode at h
  split at h
  · cases h
  · rename_i r hr
    split at h
    · cases h
    · split at h
      · cases h
      · rename_i h1 h2
        refine ⟨r, hr, by simpa using h1, fun ha hx => h2 ⟨ha, hx⟩, ?_⟩
        cases h
        rfl

end Sys2Proof
end

