-- ==== Sys2Proof/Laws/Device.lean ====
section
/-! SUPPORT. What the host's single-byte register accesses and their bus transactions are (spec 20_memory.md R60, R62). -/

namespace Sys2Proof.Machine

/-- `read_byte` succeeds exactly when its bus read does, with the byte's unsigned value. -/
theorem readByte_eq_ok {reply : Except BusError Byte} {n : Nat} :
    readByte reply = .ok n ↔ ∃ b : Byte, reply = .ok b ∧ b.toNat = n := by
  cases reply <;> simp [readByte, Except.map]

/-- `read_byte` fails exactly when its bus read does. -/
theorem readByte_eq_error {reply : Except BusError Byte} {e : BusError} :
    readByte reply = .error e ↔ reply = .error e := by
  cases reply <;> simp [readByte, Except.map]

/-- `write_byte` reports what its bus write reports. -/
@[simp] theorem writeByte_eq (reply : Except BusError Unit) : writeByte reply = reply := by
  cases reply <;> rfl

/-- Every single register access is exactly one bus transaction (R62). -/
theorem register_access_is_one_transaction (addr value : Byte) :
    (readByteTransactions addr).length = 1 ∧ (readWordTransactions addr).length = 1 ∧
      (writeByteTransactions addr value).length = 1 := ⟨rfl, rfl, rfl⟩

end Sys2Proof.Machine
end

