-- ==== Sys2Proof/Laws/State.lean ====
section
/-! SUPPORT. What each named update of State does to each field and to each accessor, so that no later proof unfolds a
record update. -/

namespace Sys2Proof.Machine

/-! ### One lemma per field per update -/

@[simp] theorem State.setReg_regs (s : State) (r : RegIdx) (v : Word) : (s.setReg r v).regs = s.regs.set r.toNat v r.isLt := rfl
@[simp] theorem State.setReg_filt (s : State) (r : RegIdx) (v : Word) : (s.setReg r v).filt = s.filt := rfl
@[simp] theorem State.setReg_fv (s : State) (r : RegIdx) (v : Word) : (s.setReg r v).fv = s.fv := rfl
@[simp] theorem State.setReg_err (s : State) (r : RegIdx) (v : Word) : (s.setReg r v).err = s.err := rfl
@[simp] theorem State.setReg_lastf (s : State) (r : RegIdx) (v : Word) : (s.setReg r v).lastf = s.lastf := rfl
@[simp] theorem State.setReg_hostIn (s : State) (r : RegIdx) (v : Word) : (s.setReg r v).hostIn = s.hostIn := rfl
@[simp] theorem State.setReg_hostOut (s : State) (r : RegIdx) (v : Word) : (s.setReg r v).hostOut = s.hostOut := rfl

@[simp] theorem State.setFilt_regs (s : State) (a : Axis) (v : Word) : (s.setFilt a v).regs = s.regs := rfl
@[simp] theorem State.setFilt_filt (s : State) (a : Axis) (v : Word) : (s.setFilt a v).filt = s.filt.set (axisIndex a) v (axisIndex a).isLt := rfl
@[simp] theorem State.setFilt_fv (s : State) (a : Axis) (v : Word) : (s.setFilt a v).fv = s.fv := rfl
@[simp] theorem State.setFilt_err (s : State) (a : Axis) (v : Word) : (s.setFilt a v).err = s.err := rfl
@[simp] theorem State.setFilt_lastf (s : State) (a : Axis) (v : Word) : (s.setFilt a v).lastf = s.lastf := rfl
@[simp] theorem State.setFilt_hostIn (s : State) (a : Axis) (v : Word) : (s.setFilt a v).hostIn = s.hostIn := rfl
@[simp] theorem State.setFilt_hostOut (s : State) (a : Axis) (v : Word) : (s.setFilt a v).hostOut = s.hostOut := rfl

@[simp] theorem State.setFv_regs (s : State) (a : Axis) (b : Bool) : (s.setFv a b).regs = s.regs := rfl
@[simp] theorem State.setFv_filt (s : State) (a : Axis) (b : Bool) : (s.setFv a b).filt = s.filt := rfl
@[simp] theorem State.setFv_fv (s : State) (a : Axis) (b : Bool) : (s.setFv a b).fv = s.fv.set (axisIndex a) b (axisIndex a).isLt := rfl
@[simp] theorem State.setFv_err (s : State) (a : Axis) (b : Bool) : (s.setFv a b).err = s.err := rfl
@[simp] theorem State.setFv_lastf (s : State) (a : Axis) (b : Bool) : (s.setFv a b).lastf = s.lastf := rfl
@[simp] theorem State.setFv_hostIn (s : State) (a : Axis) (b : Bool) : (s.setFv a b).hostIn = s.hostIn := rfl
@[simp] theorem State.setFv_hostOut (s : State) (a : Axis) (b : Bool) : (s.setFv a b).hostOut = s.hostOut := rfl

@[simp] theorem State.fail_regs (s : State) (e : CmdError) : (s.fail e).regs = s.regs := rfl
@[simp] theorem State.fail_filt (s : State) (e : CmdError) : (s.fail e).filt = s.filt := rfl
@[simp] theorem State.fail_fv (s : State) (e : CmdError) : (s.fail e).fv = s.fv := rfl
@[simp] theorem State.fail_err (s : State) (e : CmdError) : (s.fail e).err = recordError s.err e.code := rfl
@[simp] theorem State.fail_lastf (s : State) (e : CmdError) : (s.fail e).lastf = true := rfl
@[simp] theorem State.fail_hostIn (s : State) (e : CmdError) : (s.fail e).hostIn = s.hostIn := rfl
@[simp] theorem State.fail_hostOut (s : State) (e : CmdError) : (s.fail e).hostOut = s.hostOut := rfl

@[simp] theorem State.succeed_regs (s : State) : (s.succeed).regs = s.regs := rfl
@[simp] theorem State.succeed_filt (s : State) : (s.succeed).filt = s.filt := rfl
@[simp] theorem State.succeed_fv (s : State) : (s.succeed).fv = s.fv := rfl
@[simp] theorem State.succeed_err (s : State) : (s.succeed).err = s.err := rfl
@[simp] theorem State.succeed_lastf (s : State) : (s.succeed).lastf = false := rfl
@[simp] theorem State.succeed_hostIn (s : State) : (s.succeed).hostIn = s.hostIn := rfl
@[simp] theorem State.succeed_hostOut (s : State) : (s.succeed).hostOut = s.hostOut := rfl

@[simp] theorem State.clearStatus_regs (s : State) : (s.clearStatus).regs = s.regs := rfl
@[simp] theorem State.clearStatus_filt (s : State) : (s.clearStatus).filt = s.filt := rfl
@[simp] theorem State.clearStatus_fv (s : State) : (s.clearStatus).fv = s.fv := rfl
@[simp] theorem State.clearStatus_err (s : State) : (s.clearStatus).err = 0#3 := rfl
@[simp] theorem State.clearStatus_lastf (s : State) : (s.clearStatus).lastf = false := rfl
@[simp] theorem State.clearStatus_hostIn (s : State) : (s.clearStatus).hostIn = s.hostIn := rfl
@[simp] theorem State.clearStatus_hostOut (s : State) : (s.clearStatus).hostOut = s.hostOut := rfl

@[simp] theorem State.resetBlock_regs (s : State) : (s.resetBlock).regs = State.reset.regs := rfl
@[simp] theorem State.resetBlock_filt (s : State) : (s.resetBlock).filt = State.reset.filt := rfl
@[simp] theorem State.resetBlock_fv (s : State) : (s.resetBlock).fv = State.reset.fv := rfl
@[simp] theorem State.resetBlock_err (s : State) : (s.resetBlock).err = State.reset.err := rfl
@[simp] theorem State.resetBlock_lastf (s : State) : (s.resetBlock).lastf = State.reset.lastf := rfl
@[simp] theorem State.resetBlock_hostIn (s : State) : (s.resetBlock).hostIn = s.hostIn := rfl
@[simp] theorem State.resetBlock_hostOut (s : State) : (s.resetBlock).hostOut = s.hostOut := rfl

/-! ### The accessors over the updates that leave their field alone -/

@[simp] theorem State.setReg_filtOf (s : State) (r : RegIdx) (v : Word) (a' : Axis) : (s.setReg r v).filtOf a' = s.filtOf a' := rfl
@[simp] theorem State.setReg_fvOf (s : State) (r : RegIdx) (v : Word) (a' : Axis) : (s.setReg r v).fvOf a' = s.fvOf a' := rfl
@[simp] theorem State.setFilt_reg (s : State) (a : Axis) (v : Word) (r' : RegIdx) : (s.setFilt a v).reg r' = s.reg r' := rfl
@[simp] theorem State.setFilt_fvOf (s : State) (a : Axis) (v : Word) (a' : Axis) : (s.setFilt a v).fvOf a' = s.fvOf a' := rfl
@[simp] theorem State.setFv_reg (s : State) (a : Axis) (b : Bool) (r' : RegIdx) : (s.setFv a b).reg r' = s.reg r' := rfl
@[simp] theorem State.setFv_filtOf (s : State) (a : Axis) (b : Bool) (a' : Axis) : (s.setFv a b).filtOf a' = s.filtOf a' := rfl
@[simp] theorem State.fail_reg (s : State) (e : CmdError) (r' : RegIdx) : (s.fail e).reg r' = s.reg r' := rfl
@[simp] theorem State.fail_filtOf (s : State) (e : CmdError) (a' : Axis) : (s.fail e).filtOf a' = s.filtOf a' := rfl
@[simp] theorem State.fail_fvOf (s : State) (e : CmdError) (a' : Axis) : (s.fail e).fvOf a' = s.fvOf a' := rfl
@[simp] theorem State.succeed_reg (s : State) (r' : RegIdx) : (s.succeed).reg r' = s.reg r' := rfl
@[simp] theorem State.succeed_filtOf (s : State) (a' : Axis) : (s.succeed).filtOf a' = s.filtOf a' := rfl
@[simp] theorem State.succeed_fvOf (s : State) (a' : Axis) : (s.succeed).fvOf a' = s.fvOf a' := rfl
@[simp] theorem State.clearStatus_reg (s : State) (r' : RegIdx) : (s.clearStatus).reg r' = s.reg r' := rfl
@[simp] theorem State.clearStatus_filtOf (s : State) (a' : Axis) : (s.clearStatus).filtOf a' = s.filtOf a' := rfl
@[simp] theorem State.clearStatus_fvOf (s : State) (a' : Axis) : (s.clearStatus).fvOf a' = s.fvOf a' := rfl
@[simp] theorem State.with_hostIn_reg (s : State) (h : List HostEvent) (r' : RegIdx) :
    State.reg { s with hostIn := h } r' = s.reg r' := rfl
@[simp] theorem State.with_hostIn_filtOf (s : State) (h : List HostEvent) (a' : Axis) :
    State.filtOf { s with hostIn := h } a' = s.filtOf a' := rfl
@[simp] theorem State.with_hostIn_fvOf (s : State) (h : List HostEvent) (a' : Axis) :
    State.fvOf { s with hostIn := h } a' = s.fvOf a' := rfl
@[simp] theorem State.with_hostOut_reg (s : State) (h : List Word) (r' : RegIdx) :
    State.reg { s with hostOut := h } r' = s.reg r' := rfl
@[simp] theorem State.with_hostOut_filtOf (s : State) (h : List Word) (a' : Axis) :
    State.filtOf { s with hostOut := h } a' = s.filtOf a' := rfl
@[simp] theorem State.with_hostOut_fvOf (s : State) (h : List Word) (a' : Axis) :
    State.fvOf { s with hostOut := h } a' = s.fvOf a' := rfl

/-! ### The accessors over their own updates -/

theorem axisIndex_injective {a b : Axis} (h : axisIndex a = axisIndex b) : a = b := by
  cases a <;> cases b <;> first | rfl | exact absurd h (by decide)

theorem State.setReg_reg (s : State) (r r' : RegIdx) (v : Word) :
    (s.setReg r v).reg r' = if r' = r then v else s.reg r' := by
  simp only [State.reg, State.setReg, Vector.getElem_set]
  by_cases h : r' = r
  · simp [h]
  · have : r.toNat ≠ r'.toNat := fun e => h (BitVec.eq_of_toNat_eq e.symm)
    simp [h, this]

@[simp] theorem State.setReg_reg_self (s : State) (r : RegIdx) (v : Word) : (s.setReg r v).reg r = v := by
  simp [State.setReg_reg]

theorem State.setReg_reg_of_ne (s : State) {r r' : RegIdx} (v : Word) (h : r' ≠ r) :
    (s.setReg r v).reg r' = s.reg r' := by
  simp [State.setReg_reg, h]

theorem State.setFilt_filtOf (s : State) (a a' : Axis) (v : Word) :
    (s.setFilt a v).filtOf a' = if a' = a then v else s.filtOf a' := by
  cases a <;> cases a' <;> simp [State.filtOf, State.setFilt, axisIndex]

@[simp] theorem State.setFilt_filtOf_self (s : State) (a : Axis) (v : Word) : (s.setFilt a v).filtOf a = v := by
  simp [State.setFilt_filtOf]

theorem State.setFv_fvOf (s : State) (a a' : Axis) (b : Bool) :
    (s.setFv a b).fvOf a' = if a' = a then b else s.fvOf a' := by
  cases a <;> cases a' <;> simp [State.fvOf, State.setFv, axisIndex]

@[simp] theorem State.setFv_fvOf_self (s : State) (a : Axis) (b : Bool) : (s.setFv a b).fvOf a = b := by
  simp [State.setFv_fvOf]

/-! ### seedAxis and clearAxis, which are two updates each -/

@[simp] theorem State.seedAxis_reg (s : State) (a : Axis) (v : Word) (r : RegIdx) : (s.seedAxis a v).reg r = s.reg r := rfl

theorem State.seedAxis_filtOf (s : State) (a a' : Axis) (v : Word) :
    (s.seedAxis a v).filtOf a' = if a' = a then v else s.filtOf a' := by
  simp [State.seedAxis, State.setFilt_filtOf]

theorem State.seedAxis_fvOf (s : State) (a a' : Axis) (v : Word) :
    (s.seedAxis a v).fvOf a' = if a' = a then true else s.fvOf a' := by
  simp [State.seedAxis, State.setFv_fvOf]

@[simp] theorem State.clearAxis_reg (s : State) (a : Axis) (r : RegIdx) : (s.clearAxis a).reg r = s.reg r := rfl

theorem State.clearAxis_filtOf (s : State) (a a' : Axis) :
    (s.clearAxis a).filtOf a' = if a' = a then 0#32 else s.filtOf a' := by
  simp [State.clearAxis, State.setFilt_filtOf]

theorem State.clearAxis_fvOf (s : State) (a a' : Axis) :
    (s.clearAxis a).fvOf a' = if a' = a then false else s.fvOf a' := by
  simp [State.clearAxis, State.setFv_fvOf]

@[simp] theorem State.seedAxis_regs (s : State) (a : Axis) (v : Word) : (s.seedAxis a v).regs = s.regs := rfl
@[simp] theorem State.seedAxis_err (s : State) (a : Axis) (v : Word) : (s.seedAxis a v).err = s.err := rfl
@[simp] theorem State.seedAxis_lastf (s : State) (a : Axis) (v : Word) : (s.seedAxis a v).lastf = s.lastf := rfl
@[simp] theorem State.seedAxis_hostIn (s : State) (a : Axis) (v : Word) : (s.seedAxis a v).hostIn = s.hostIn := rfl
@[simp] theorem State.seedAxis_hostOut (s : State) (a : Axis) (v : Word) : (s.seedAxis a v).hostOut = s.hostOut := rfl
@[simp] theorem State.clearAxis_regs (s : State) (a : Axis) : (s.clearAxis a).regs = s.regs := rfl
@[simp] theorem State.clearAxis_err (s : State) (a : Axis) : (s.clearAxis a).err = s.err := rfl
@[simp] theorem State.clearAxis_lastf (s : State) (a : Axis) : (s.clearAxis a).lastf = s.lastf := rfl
@[simp] theorem State.clearAxis_hostIn (s : State) (a : Axis) : (s.clearAxis a).hostIn = s.hostIn := rfl
@[simp] theorem State.clearAxis_hostOut (s : State) (a : Axis) : (s.clearAxis a).hostOut = s.hostOut := rfl

/-! ### Reset -/

@[simp] theorem State.reset_reg (r : RegIdx) : State.reset.reg r = 0#32 := by
  simp [State.reg, State.reset]

@[simp] theorem State.reset_filtOf (a : Axis) : State.reset.filtOf a = 0#32 := by
  simp [State.filtOf, State.reset]

@[simp] theorem State.reset_fvOf (a : Axis) : State.reset.fvOf a = false := by
  simp [State.fvOf, State.reset]

@[simp] theorem State.resetBlock_reg (s : State) (r : RegIdx) : s.resetBlock.reg r = 0#32 := State.reset_reg r

@[simp] theorem State.resetBlock_filtOf (s : State) (a : Axis) : s.resetBlock.filtOf a = 0#32 := State.reset_filtOf a

@[simp] theorem State.resetBlock_fvOf (s : State) (a : Axis) : s.resetBlock.fvOf a = false := State.reset_fvOf a

/-! ### States are told apart by their accessors -/

theorem State.regs_eq_of_reg {s t : State} (h : ∀ r, s.reg r = t.reg r) : s.regs = t.regs := by
  apply Vector.ext
  intro i hi
  have := h (BitVec.ofNat 3 i)
  have hm : i % 8 = i := Nat.mod_eq_of_lt hi
  simpa [State.reg, BitVec.toNat_ofNat, hm] using this

theorem State.filt_eq_of_filtOf {s t : State} (h : ∀ a, s.filtOf a = t.filtOf a) : s.filt = t.filt := by
  apply Vector.ext
  intro i hi
  match i, hi with
  | 0, _ => exact h .x
  | 1, _ => exact h .y
  | 2, _ => exact h .z

theorem State.fv_eq_of_fvOf {s t : State} (h : ∀ a, s.fvOf a = t.fvOf a) : s.fv = t.fv := by
  apply Vector.ext
  intro i hi
  match i, hi with
  | 0, _ => exact h .x
  | 1, _ => exact h .y
  | 2, _ => exact h .z

end Sys2Proof.Machine
end

