-- ==== Sys2Proof/Laws/Ops.lean ====
section
/-! SUPPORT. What each shared operation can do, said once: how a command ends, a body that needs an axis or a seeded
axis, the STATUS update, and floor division. -/

namespace Sys2Proof.Machine

/-! ### How a command ends -/

@[simp] theorem conclude_ok (s t : State) : conclude s (.ok t) = .next t.succeed := rfl

@[simp] theorem conclude_error (s : State) (e : CmdError) : conclude s (.error e) = .next (s.fail e) := rfl

/-- A command always answers a next state (60_exceptions.md R220, R232). -/
theorem conclude_next (s : State) (body : Except CmdError State) : ∃ t, conclude s body = .next t := by
  cases body <;> exact ⟨_, rfl⟩

/-- Everything a command's end can be. -/
theorem conclude_cases {s t : State} {body : Except CmdError State} (h : conclude s body = .next t) :
    (∃ u, body = .ok u ∧ t = u.succeed) ∨ (∃ e, body = .error e ∧ t = s.fail e) := by
  cases body with
  | ok u => exact .inl ⟨u, rfl, by simpa using h.symm⟩
  | error e => exact .inr ⟨e, rfl, by simpa using h.symm⟩

/-! ### Bodies that need an axis -/

theorem axisOf_eq_none {ax : AxisField} : axisOf ax = none ↔ ax = 3#2 := by
  revert ax
  decide

theorem axisOf_isSome_of_ne {ax : AxisField} (h : ax ≠ 3#2) : ∃ a, axisOf ax = some a := by
  cases hx : axisOf ax with
  | none => exact absurd (axisOf_eq_none.mp hx) h
  | some a => exact ⟨a, rfl⟩

theorem withAxis_of_none {ax : AxisField} {body : Axis → Except CmdError State} (h : axisOf ax = none) :
    withAxis ax body = .error .illegalCommand := by
  simp [withAxis, h]

theorem withAxis_of_some {ax : AxisField} {a : Axis} {body : Axis → Except CmdError State} (h : axisOf ax = some a) :
    withAxis ax body = body a := by
  simp [withAxis, h]

theorem withSeeded_of_seeded {s : State} {a : Axis} {body : Word → Except CmdError State} (h : s.fvOf a = true) :
    withSeeded s a body = body (s.filtOf a) := by
  simp [withSeeded, h]

theorem withSeeded_of_unseeded {s : State} {a : Axis} {body : Word → Except CmdError State} (h : s.fvOf a = false) :
    withSeeded s a body = .error .filterNotSeeded := by
  simp [withSeeded, h]

/-- Everything the step SMOOTH and SAMPLE share can do. -/
theorem smoothStep_cases (rd : RegIdx) (ax : AxisField) (x : Int) (weight : Half) (s : State) :
    (axisOf ax = none ∧ smoothStep rd ax x weight s = .error .illegalCommand) ∨
    (∃ a, axisOf ax = some a ∧ s.fvOf a = false ∧ smoothStep rd ax x weight s = .error .filterNotSeeded) ∨
    (∃ a, axisOf ax = some a ∧ s.fvOf a = true ∧
      smoothStep rd ax x weight s =
        .ok ((s.setFilt a (u32 (smoothFx x (s32 (s.filtOf a)) weight))).setReg rd
          (u32 (smoothFx x (s32 (s.filtOf a)) weight)))) := by
  cases hx : axisOf ax with
  | none => exact .inl ⟨rfl, by simp [smoothStep, withAxis_of_none hx]⟩
  | some a =>
    cases hv : s.fvOf a with
    | false => exact .inr (.inl ⟨a, rfl, hv, by simp [smoothStep, withAxis_of_some hx, withSeeded_of_unseeded hv]⟩)
    | true => exact .inr (.inr ⟨a, rfl, hv, by simp [smoothStep, withAxis_of_some hx, withSeeded_of_seeded hv]⟩)

/-! ### STATUS -/

@[simp] theorem recordError_zero (c : BitVec 3) : recordError 0#3 c = c := rfl

theorem recordError_of_ne {old : BitVec 3} (c : BitVec 3) (h : old ≠ 0#3) : recordError old c = old := by
  simp [recordError, h]

/-- A failure leaves a code in ERR (60_exceptions.md R231). -/
theorem recordError_ne_zero (old : BitVec 3) (e : CmdError) : recordError old e.code ≠ 0#3 := by
  by_cases h : old = 0#3
  · subst h
    cases e <;> decide
  · rw [recordError_of_ne _ h]
    exact h

/-- ERR stays one of the legal codes (10_state.md R30). -/
theorem recordError_le_four {old : BitVec 3} (e : CmdError) (h : old.toNat ≤ 4) : (recordError old e.code).toNat ≤ 4 := by
  by_cases h0 : old = 0#3
  · subst h0
    cases e <;> decide
  · rwa [recordError_of_ne _ h0]

/-! ### Arithmetic -/

/-- `floorDiv` by a positive divisor is Lean's `/`, which `omega` knows. -/
theorem floorDiv_eq_div (a : Int) {b : Int} (h : 0 ≤ b) : floorDiv a b = a / b :=
  Int.fdiv_eq_ediv_of_nonneg a h

theorem toPhysical_eq (r : Int) : toPhysical r = (2 * (r * 1569064) + 625) / 1250 :=
  floorDiv_eq_div _ (by decide)

theorem smoothFx_eq (x y : Int) (imm : Half) : smoothFx x y imm = (smoothAcc x y imm + 8192) / 16384 :=
  floorDiv_eq_div _ (by decide)

theorem clampWeight_bounds (imm : Half) : 0 ≤ clampWeight imm ∧ clampWeight imm ≤ 16384 := by
  unfold clampWeight
  split
  · omega
  · split <;> omega

theorem smoothAcc_bounds {x y lo hi : Int} (imm : Half) (hx : lo ≤ x ∧ x ≤ hi) (hy : lo ≤ y ∧ y ≤ hi) :
    16384 * lo ≤ smoothAcc x y imm ∧ smoothAcc x y imm ≤ 16384 * hi := by
  obtain ⟨h0, h1⟩ := clampWeight_bounds imm
  unfold smoothAcc
  generalize clampWeight imm = w at *
  have a := mul_le_mul_of_nonneg_right hx.1 h0
  have b := mul_le_mul_of_nonneg_right hx.2 h0
  have c := mul_le_mul_of_nonneg_right hy.1 (by omega : 0 ≤ 16384 - w)
  have d := mul_le_mul_of_nonneg_right hy.2 (by omega : 0 ≤ 16384 - w)
  have e : lo * w + lo * (16384 - w) = 16384 * lo := by ring
  have f : hi * w + hi * (16384 - w) = 16384 * hi := by ring
  omega

/-! ### Operands -/

/-- An integer in the signed 32-bit range survives `u32` (00_scope.md R15). -/
theorem u32_toInt {n : Int} (h1 : -2147483648 ≤ n) (h2 : n < 2147483648) : (u32 n).toInt = n := by
  rw [u32, BitVec.toInt_ofInt]
  exact Int.bmod_eq_of_le (by omega) (by omega)

theorem sextHalf_toInt (h : Half) : (sextHalf h).toInt = h.toInt := by
  have h1 := BitVec.le_toInt h
  have h2 := BitVec.toInt_lt (x := h)
  exact u32_toInt (by omega) (by omega)

theorem byteOf_toNat (s : State) (r : RegIdx) : (s.byteOf r).toNat = (s.reg r).toNat % 256 := by
  simp [State.byteOf]

theorem byteOf_getLsbD (s : State) (r : RegIdx) (j : Nat) :
    (s.byteOf r).getLsbD j = (decide (j < 8) && (s.reg r).getLsbD j) := by
  simp [State.byteOf]

theorem zextByte_toNat (v : Byte) : (zextByte v).toNat = v.toNat := by
  have := v.isLt
  simp only [zextByte, BitVec.toNat_setWidth]
  omega

theorem zextByte_getLsbD (v : Byte) (j : Nat) : (zextByte v).getLsbD j = v.getLsbD j := by
  simp only [zextByte, BitVec.getLsbD_setWidth]
  by_cases h : j < 8
  · simp [show j < 32 by omega]
  · simp [BitVec.getLsbD_of_ge v j (by omega)]

theorem rawSample_eq (v : Word) : rawSample v = (BitVec.ofNat 16 v.toNat).toInt := by
  rw [rawSample]
  congr 1

end Sys2Proof.Machine
end

