-- ==== Sys2Proof/Laws/Window.lean ====
section
/-! SUPPORT. The host window and the step: which accesses are defined, what a defined one does, and the command word of
30_encoding.md R95 as the encoder packs it. -/

namespace Sys2Proof.Machine

/-! ### Accesses -/

theorem definedOffset_eq_some {a : HostAccess} {off : Nat} :
    definedOffset a = some off ↔ a.bytes = 4 ∧ a.offset = (off : Int) ∧ off < 256 ∧ off % 4 = 0 := by
  unfold definedOffset windowBytes
  split
  · rename_i h
    simp only [Option.some.injEq]
    constructor
    · rintro rfl
      omega
    · rintro ⟨_, h2, _, _⟩
      omega
  · rename_i h
    simp only [reduceCtorEq, false_iff]
    rintro ⟨h1, h2, h3, h4⟩
    exact h ⟨h1, by omega, by omega, by omega⟩

theorem definedOffset_eq_none {a : HostAccess} :
    definedOffset a = none ↔ ¬ (a.bytes = 4 ∧ 0 ≤ a.offset ∧ a.offset < 256 ∧ a.offset % 4 = 0) := by
  unfold definedOffset windowBytes
  split <;> simp_all

/-- The window offset of an aligned 32-bit access. -/
theorem definedOffset_word {off : Nat} (k : AccessKind) (h : off < 256) (h4 : off % 4 = 0) :
    definedOffset ⟨off, 4, k⟩ = some off :=
  definedOffset_eq_some.mpr ⟨rfl, rfl, h, h4⟩

theorem serveEvent_hostRead (s : State) {off : Nat} (h : off < 256) (h4 : off % 4 = 0) :
    serveEvent (hostRead off) s = .next { s with hostOut := s.hostOut ++ [windowRead s (windowReg off)] } := by
  simp [serveEvent, hostRead, serveAccess, definedOffset_word _ h h4]

theorem serveEvent_hostWrite (s : State) {off : Nat} (v : Word) (h : off < 256) (h4 : off % 4 = 0) :
    serveEvent (hostWrite off v) s = windowWrite v s (windowReg off) := by
  simp [serveEvent, hostWrite, serveAccess, definedOffset_word _ h h4]

/-! ### The window map at each register -/

@[simp] theorem windowReg_cmd : windowReg 0x00 = .cmd := rfl
@[simp] theorem windowReg_status : windowReg 0x04 = .status := rfl
@[simp] theorem windowReg_devmap0 : windowReg 0x40 = .devmap0 := rfl
@[simp] theorem windowReg_devmap1 : windowReg 0x44 = .devmap1 := rfl

theorem windowReg_operand (r : RegIdx) : windowReg (0x08 + 4 * r.toNat) = .operand r := by
  revert r
  decide

theorem windowReg_filter (a : Axis) : windowReg (0x28 + 4 * (axisIndex a).val) = .filter a := by
  cases a <;> rfl

/-! ### The step -/

theorem step_idle {s : State} (h : s.hostIn = []) : step s = .next s := by
  simp [step, h]

theorem step_event {s : State} {e : HostEvent} {rest : List HostEvent} (h : s.hostIn = e :: rest) :
    step s = serveEvent e { s with hostIn := rest } := by
  simp [step, h]

/-- Writing a word to CMD runs it. -/
theorem step_cmd {s : State} {w : Word} {rest : List HostEvent} (h : s.hostIn = hostWrite 0x00 w :: rest) :
    step s = runWord w { s with hostIn := rest } := by
  rw [step_event h, serveEvent_hostWrite _ _ (by decide) (by decide)]
  rfl

theorem runWord_of_decode {w : Word} {i : Instr} (s : State) (h : decode w = .ok i) : runWord w s = exec i s := by
  simp [runWord, h]

theorem runWord_of_illegal {w : Word} {e : DecodeError} (s : State) (h : decode w = .error e) :
    runWord w s = .next (s.fail .illegalCommand) := by
  simp [runWord, h]

/-! ### STATUS as a number -/

theorem packStatus_toNat (err : BitVec 3) (lastf fv0 fv1 fv2 : Bool) :
    (packStatus err lastf fv0 fv1 fv2).toNat =
      err.toNat + 8 * lastf.toNat + 16 * fv0.toNat + 32 * fv1.toNat + 64 * fv2.toNat := by
  simp only [packStatus, append_toNat, BitVec.toNat_ofBool, BitVec.toNat_ofNat]
  omega

end Sys2Proof.Machine

namespace Sys2Proof.Safety

/-- R95's word is what the encoder packs. -/
theorem rawWord_eq_packWord (opc : BitVec 5) (rd rs1 rs2 : RegIdx) (ax : AxisField) (imm : Half) :
    rawWord opc.toNat rd rs1 rs2 ax imm = packWord opc rd rs1 rs2 ax imm := by
  apply BitVec.eq_of_toNat_eq
  have h1 := imm.isLt
  have h2 := ax.isLt
  have h3 := rs2.isLt
  have h4 := rs1.isLt
  have h5 := rd.isLt
  have h6 := opc.isLt
  rw [packWord_toNat, rawWord, ← Nat.shiftLeft_add_eq_or_of_lt (b := imm.toNat) (i := 16) h1,
    ← Nat.shiftLeft_add_eq_or_of_lt (i := 18), ← Nat.shiftLeft_add_eq_or_of_lt (i := 21),
    ← Nat.shiftLeft_add_eq_or_of_lt (i := 24), ← Nat.shiftLeft_add_eq_or_of_lt (i := 27)]
  all_goals simp only [Nat.shiftLeft_eq, BitVec.toNat_ofNat]
  all_goals omega

/-- Each row of the decoder's table tests exactly the bits the "used fields" column of R86 leaves out. -/
theorem opcodeTable_tests_unused : ∀ r ∈ opcodeTable, ∃ fields, usedFields r.opc.toNat = some fields ∧
    (∀ j < 27, r.mask.getLsbD j = fields.all (fun f => !(fieldBits f).getLsbD j)) ∧
    (∀ j < 27, r.value.getLsbD j = false) ∧
    (∀ j < 5, r.mask.getLsbD (27 + j) = true ∧ r.value.getLsbD (27 + j) = r.opc.getLsbD j) ∧
    r.usesAx = fields.contains .ax := by
  simp only [opcodeTable, List.forall_mem_cons, List.not_mem_nil, false_implies, implies_true, and_true]
  refine ⟨?_, ?_, ?_, ?_, ?_, ?_, ?_, ?_, ?_, ?_, ?_, ?_, ?_, ?_, ?_, ?_, ?_, ?_, ?_, ?_, ?_, ?_, ?_, ?_⟩ <;>
    exact ⟨_, rfl, by decide, by decide, by decide, by decide⟩

/-- The opcodes without a row are the reserved ones (R87). -/
theorem usedFields_of_rowOf_none {opc : BitVec 5} (h : rowOf opc = none) : usedFields opc.toNat = none := by
  revert opc
  decide

end Sys2Proof.Safety
end

