-- ==== Sys2Proof/Laws/Exec.lean ====
section
/-! SUPPORT. Everything a command, a word written to CMD and a step can do, said once. -/

namespace Sys2Proof.Laws

open Sys2Proof.Machine Sys2Proof.Safety

/-- Every command ends in `conclude`. -/
theorem exec_eq_conclude (i : Instr) (s : State) : ∃ body, exec i s = conclude s body := by
  cases i <;> simp only [exec, execNop, execLi, execLih, execChkid, execEncrng, execDecrng, execEncdr, execDecdr, execEncwk,
    execDecwk, execSetrng, execSetdr, execSetfr, execSetst, execCpwr, execSetms, execMerge, execLdraw, execConv, execSeed,
    execSmooth, execRdfilt, execClrfilt, execSample] <;> exact ⟨_, rfl⟩

/-- Every command answers a next state: the state with its effect and LASTF cleared, or a failure. -/
theorem exec_answers (i : Instr) (s : State) :
    (∃ u, exec i s = .next (State.succeed u)) ∨ ∃ e, exec i s = .next (s.fail e) := by
  obtain ⟨body, h⟩ := exec_eq_conclude i s
  rw [h]
  cases body with
  | ok u => exact .inl ⟨u, rfl⟩
  | error e => exact .inr ⟨e, rfl⟩

/-- What a command whose body encodes a semantic value can leave. -/
theorem conclude_map_cases {s t : State} {rd : RegIdx} {code : Except CmdError Byte} {f : Byte → Word}
    (h : conclude s (code.map fun p => s.setReg rd (f p)) = .next t) :
    (∃ e, t = s.fail e) ∨ ∃ v, t = (s.setReg rd v).succeed := by
  rcases conclude_cases h with ⟨u, hu, rfl⟩ | ⟨e, _, rfl⟩
  · cases code <;> simp [Except.map] at hu
    exact .inr ⟨_, by rw [hu]⟩
  · exact .inl ⟨e, rfl⟩

/-- What the step SMOOTH and SAMPLE share can leave. -/
theorem conclude_smoothStep_cases {s t : State} {rd : RegIdx} {ax : AxisField} {x : Int} {weight : Half}
    (h : conclude s (smoothStep rd ax x weight s) = .next t) :
    (∃ e, t = s.fail e) ∨
      ∃ a v, axisOf ax = some a ∧ s.fvOf a = true ∧ t = ((s.setFilt a v).setReg rd v).succeed := by
  rcases smoothStep_cases rd ax x weight s with ⟨_, h'⟩ | ⟨a, _, _, h'⟩ | ⟨a, ha, hv, h'⟩ <;>
    rw [h'] at h <;> simp at h <;> subst h
  · exact .inl ⟨_, rfl⟩
  · exact .inl ⟨_, rfl⟩
  · exact .inr ⟨a, _, ha, hv, rfl⟩

/-- Everything a command can do: fail, only succeed, write its destination, seed an axis, clear an axis, or write the
filter state of a seeded axis and its destination. -/
theorem exec_cases {i : Instr} {s t : State} (h : exec i s = .next t) :
    (∃ e, t = s.fail e) ∨ t = s.succeed ∨
      (∃ rd v, destReg i = some rd ∧ t = (s.setReg rd v).succeed) ∨
      (∃ ax rs1 a, i = .seed ax rs1 ∧ axisOf ax = some a ∧ t = (s.seedAxis a (s.reg rs1)).succeed) ∨
      (∃ ax a, i = .clrfilt ax ∧ axisOf ax = some a ∧ t = (s.clearAxis a).succeed) ∨
      ∃ rd a v, destReg i = some rd ∧ filtWritten i = some a ∧ s.fvOf a = true ∧
        t = ((s.setFilt a v).setReg rd v).succeed := by
  cases i
  case nop => cases h; exact .inr (.inl rfl)
  case li | lih | decrng | decdr | decwk | setfr | setst | setms | merge | ldraw | conv =>
    cases h; exact .inr (.inr (.inl ⟨_, _, rfl, rfl⟩))
  case chkid =>
    rcases conclude_cases h with ⟨u, hu, rfl⟩ | ⟨e, _, rfl⟩
    · split at hu <;> cases hu
      exact .inr (.inl rfl)
    · exact .inl ⟨_, rfl⟩
  case encrng | encdr | encwk | setrng | setdr =>
    rcases conclude_map_cases h with h | ⟨v, h⟩
    · exact .inl h
    · exact .inr (.inr (.inl ⟨_, v, rfl, h⟩))
  case cpwr enable =>
    cases enable
    · cases h; exact .inr (.inr (.inl ⟨_, _, rfl, rfl⟩))
    · rcases conclude_map_cases h with h | ⟨v, h⟩
      · exact .inl h
      · exact .inr (.inr (.inl ⟨_, v, rfl, h⟩))
  case seed ax rs1 =>
    cases ha : axisOf ax <;> simp [exec, execSeed, withAxis, ha] at h <;> subst h
    · exact .inl ⟨_, rfl⟩
    · exact .inr (.inr (.inr (.inl ⟨ax, rs1, _, rfl, ha, rfl⟩)))
  case clrfilt ax =>
    cases ha : axisOf ax <;> simp [exec, execClrfilt, withAxis, ha] at h <;> subst h
    · exact .inl ⟨_, rfl⟩
    · exact .inr (.inr (.inr (.inr (.inl ⟨ax, _, rfl, ha, rfl⟩))))
  case rdfilt rd ax =>
    cases ha : axisOf ax with
    | none => simp [exec, execRdfilt, withAxis, ha] at h; subst h; exact .inl ⟨_, rfl⟩
    | some a =>
      cases hv : s.fvOf a <;> simp [exec, execRdfilt, withAxis, ha, withSeeded, hv] at h <;> subst h
      · exact .inl ⟨_, rfl⟩
      · exact .inr (.inr (.inl ⟨_, _, rfl, rfl⟩))
  case smooth | sample =>
    rcases conclude_smoothStep_cases h with h | ⟨a, v, ha, hv, h⟩
    · exact .inl h
    · exact .inr (.inr (.inr (.inr (.inr ⟨_, a, v, rfl, ha, hv, h⟩))))

/-- Everything a word written to CMD can do. -/
theorem runWord_cases {w : Word} {s t : State} (h : runWord w s = .next t) :
    (∃ i, decode w = .ok i ∧ exec i s = .next t) ∨ ∃ e, decode w = .error e ∧ t = s.fail .illegalCommand := by
  cases hd : decode w with
  | ok i => exact .inl ⟨i, rfl, by rw [← runWord_of_decode s hd]; exact h⟩
  | error e =>
    rw [runWord_of_illegal s hd] at h
    cases h
    exact .inr ⟨e, rfl, rfl⟩

/-- Everything a step can do: nothing without a pending event, a reset, a host read, or a host write. -/
theorem step_cases {s t : State} (h : step s = .next t) :
    (s.hostIn = [] ∧ t = s) ∨ ∃ e rest, s.hostIn = e :: rest ∧
      ((e = .reset ∧ t = State.resetBlock { s with hostIn := rest }) ∨
        (∃ off, off < 256 ∧ off % 4 = 0 ∧ e = hostRead off ∧
          t = { s with hostIn := rest, hostOut := s.hostOut ++ [windowRead { s with hostIn := rest } (windowReg off)] }) ∨
        ∃ off v, off < 256 ∧ off % 4 = 0 ∧ e = hostWrite off v ∧
          windowWrite v { s with hostIn := rest } (windowReg off) = .next t) := by
  cases he : s.hostIn with
  | nil => rw [step_idle he] at h; cases h; exact .inl ⟨rfl, rfl⟩
  | cons e rest =>
    rw [step_event he] at h
    refine .inr ⟨e, rest, rfl, ?_⟩
    cases e with
    | reset => cases h; exact .inl ⟨rfl, rfl⟩
    | access a =>
      simp only [serveEvent, serveAccess] at h
      split at h
      · cases h
      · rename_i off ho
        obtain ⟨h1, h2, h3, h4⟩ := definedOffset_eq_some.mp ho
        obtain ⟨o, b, k⟩ := a
        simp only at h1 h2
        subst h1 h2
        cases k with
        | read => cases h; exact .inr (.inl ⟨off, h3, h4, rfl, rfl⟩)
        | write v => exact .inr (.inr ⟨off, v, h3, h4, rfl, h⟩)

end Sys2Proof.Laws
end

