-- ==== Sys2Proof/Laws/PerInstr.lean ====
section
/-! SUPPORT. For every command, one lemma: its word meets its own row of the opcode map (spec 30_encoding.md R86). -/

namespace Sys2Proof.Laws.TableRow

/-- The word of `i` has an opcode whose row is the row of `i`'s mnemonic, meets that row's match and mask, and the row
uses AX exactly when `i` has an AX operand. -/
def Statement (i : Instr) : Prop :=
  ∃ r, rowOf (opcField (encode i)) = some r ∧ r.mnemonic = i.mnemonic ∧ encode i &&& r.mask = r.value ∧
    r.usesAx = i.axisField?.isSome

/-- The shape every lemma below has: the row found for the opcode, and the mask test field by field. -/
theorem of_row {i : Instr} {opc : BitVec 5} {rd rs1 rs2 : RegIdx} {ax : AxisField} {imm : Half} {r : OpcodeRow}
    (he : encode i = packWord opc rd rs1 rs2 ax imm) (hr : rowOf opc = some r) (hm : r.mnemonic = i.mnemonic)
    (ha : r.usesAx = i.axisField?.isSome)
    (hf : opc &&& opcField r.mask = opcField r.value ∧ rd &&& rdField r.mask = rdField r.value ∧
      rs1 &&& rs1Field r.mask = rs1Field r.value ∧ rs2 &&& rs2Field r.mask = rs2Field r.value ∧
      ax &&& axField r.mask = axField r.value ∧ imm &&& immField r.mask = immField r.value) : Statement i := by
  refine ⟨r, by rw [he, opcField_packWord]; exact hr, hm, ?_, ha⟩
  rw [mask_iff_fields, he]
  simpa using hf

theorem imm1Bits_mask (b : Bool) : imm1Bits b &&& 0xFFFE#16 = 0#16 := by
  cases b <;> decide

theorem imm8Bits_mask (m : Byte) : imm8Bits m &&& 0xFF00#16 = 0#16 := by
  apply BitVec.eq_of_getLsbD_eq
  intro j hj
  rw [BitVec.getLsbD_and]
  interval_cases j <;> simp [imm8Bits]

/-- A field the opcode uses is not tested. -/
theorem and_field_zero {n : Nat} (x : BitVec n) : x &&& 0#n = 0#n := by simp

theorem nop : Statement .nop :=
  of_row rfl rfl rfl rfl ⟨rfl, rfl, rfl, rfl, rfl, rfl⟩

theorem li (rd : RegIdx) (imm : Half) : Statement (.li rd imm) :=
  of_row rfl rfl rfl rfl ⟨rfl, and_field_zero _, rfl, rfl, rfl, and_field_zero _⟩

theorem lih (rd : RegIdx) (imm : Half) : Statement (.lih rd imm) :=
  of_row rfl rfl rfl rfl ⟨rfl, and_field_zero _, rfl, rfl, rfl, and_field_zero _⟩

theorem chkid (rs1 : RegIdx) : Statement (.chkid rs1) :=
  of_row rfl rfl rfl rfl ⟨rfl, rfl, and_field_zero _, rfl, rfl, rfl⟩

theorem encrng (rd rs1 : RegIdx) : Statement (.encrng rd rs1) :=
  of_row rfl rfl rfl rfl ⟨rfl, and_field_zero _, and_field_zero _, rfl, rfl, rfl⟩

theorem decrng (rd rs1 : RegIdx) : Statement (.decrng rd rs1) :=
  of_row rfl rfl rfl rfl ⟨rfl, and_field_zero _, and_field_zero _, rfl, rfl, rfl⟩

theorem encdr (rd rs1 : RegIdx) : Statement (.encdr rd rs1) :=
  of_row rfl rfl rfl rfl ⟨rfl, and_field_zero _, and_field_zero _, rfl, rfl, rfl⟩

theorem decdr (rd rs1 : RegIdx) : Statement (.decdr rd rs1) :=
  of_row rfl rfl rfl rfl ⟨rfl, and_field_zero _, and_field_zero _, rfl, rfl, rfl⟩

theorem encwk (rd rs1 : RegIdx) : Statement (.encwk rd rs1) :=
  of_row rfl rfl rfl rfl ⟨rfl, and_field_zero _, and_field_zero _, rfl, rfl, rfl⟩

theorem decwk (rd rs1 : RegIdx) : Statement (.decwk rd rs1) :=
  of_row rfl rfl rfl rfl ⟨rfl, and_field_zero _, and_field_zero _, rfl, rfl, rfl⟩

theorem setrng (rd rs1 rs2 : RegIdx) : Statement (.setrng rd rs1 rs2) :=
  of_row rfl rfl rfl rfl ⟨rfl, and_field_zero _, and_field_zero _, and_field_zero _, rfl, rfl⟩

theorem setdr (rd rs1 rs2 : RegIdx) : Statement (.setdr rd rs1 rs2) :=
  of_row rfl rfl rfl rfl ⟨rfl, and_field_zero _, and_field_zero _, and_field_zero _, rfl, rfl⟩

theorem setfr (rd rs1 : RegIdx) (on : Bool) : Statement (.setfr rd rs1 on) :=
  of_row rfl rfl rfl rfl ⟨rfl, and_field_zero _, and_field_zero _, rfl, rfl, imm1Bits_mask _⟩

theorem setst (rd rs1 : RegIdx) (on : Bool) : Statement (.setst rd rs1 on) :=
  of_row rfl rfl rfl rfl ⟨rfl, and_field_zero _, and_field_zero _, rfl, rfl, imm1Bits_mask _⟩

theorem cpwr (rd rs1 rs2 : RegIdx) (enable : Bool) : Statement (.cpwr rd rs1 rs2 enable) :=
  of_row rfl rfl rfl rfl ⟨rfl, and_field_zero _, and_field_zero _, and_field_zero _, rfl, imm1Bits_mask _⟩

theorem setms (rd rs1 : RegIdx) : Statement (.setms rd rs1) :=
  of_row rfl rfl rfl rfl ⟨rfl, and_field_zero _, and_field_zero _, rfl, rfl, rfl⟩

theorem merge (rd rs1 rs2 : RegIdx) (mask : Byte) : Statement (.merge rd rs1 rs2 mask) :=
  of_row rfl rfl rfl rfl ⟨rfl, and_field_zero _, and_field_zero _, and_field_zero _, rfl, imm8Bits_mask _⟩

theorem ldraw (rd rs1 rs2 : RegIdx) : Statement (.ldraw rd rs1 rs2) :=
  of_row rfl rfl rfl rfl ⟨rfl, and_field_zero _, and_field_zero _, and_field_zero _, rfl, rfl⟩

theorem conv (rd rs1 : RegIdx) : Statement (.conv rd rs1) :=
  of_row rfl rfl rfl rfl ⟨rfl, and_field_zero _, and_field_zero _, rfl, rfl, rfl⟩

theorem seed (ax : AxisField) (rs1 : RegIdx) : Statement (.seed ax rs1) :=
  of_row rfl rfl rfl rfl ⟨rfl, rfl, and_field_zero _, rfl, and_field_zero _, rfl⟩

theorem smooth (rd rs1 : RegIdx) (ax : AxisField) (weight : Half) : Statement (.smooth rd rs1 ax weight) :=
  of_row rfl rfl rfl rfl ⟨rfl, and_field_zero _, and_field_zero _, rfl, and_field_zero _, and_field_zero _⟩

theorem rdfilt (rd : RegIdx) (ax : AxisField) : Statement (.rdfilt rd ax) :=
  of_row rfl rfl rfl rfl ⟨rfl, and_field_zero _, rfl, rfl, and_field_zero _, rfl⟩

theorem clrfilt (ax : AxisField) : Statement (.clrfilt ax) :=
  of_row rfl rfl rfl rfl ⟨rfl, rfl, rfl, rfl, and_field_zero _, rfl⟩

theorem sample (rd rs1 : RegIdx) (ax : AxisField) (weight : Half) : Statement (.sample rd rs1 ax weight) :=
  of_row rfl rfl rfl rfl ⟨rfl, and_field_zero _, and_field_zero _, rfl, and_field_zero _, and_field_zero _⟩

end Sys2Proof.Laws.TableRow
end

