-- ==== Sys2Proof/Machine/AsmText.lean ====
section
/-! DEFINITION. Reading a line of assembler text (spec 30_encoding.md R91 to R93). The rules fix the order of a line's parts
and the range of each operand; how an integer is spelled, and that spaces around an operand do not matter, is read from the
examples of the spec (log 13). A text is a list of characters. -/

namespace Sys2Proof.Machine

/-! ### Numbers -/

/-- The value of a digit. -/
def digitOf (c : Char) : Option Nat :=
  if 48 ≤ c.toNat ∧ c.toNat ≤ 57 then some (c.toNat - 48)
  else if 65 ≤ c.toNat ∧ c.toNat ≤ 70 then some (c.toNat - 55)
  else if 97 ≤ c.toNat ∧ c.toNat ≤ 102 then some (c.toNat - 87)
  else none

/-- The value of the digits in a base, after `acc`. -/
def digitsFrom (base acc : Nat) : List Char → Option Nat
  | [] => some acc
  | c :: rest =>
    match digitOf c with
    | some d => if d < base then digitsFrom base (base * acc + d) rest else none
    | none => none

/-- At least one digit in a base. -/
def digitsOf (base : Nat) (text : List Char) : Option Nat := if text.isEmpty then none else digitsFrom base 0 text

/-- An unsigned number: `0x` and hexadecimal digits, decimal digits, or decimal digits around one point. -/
def unsignedOf (text : List Char) : Option AsmOperand :=
  match text with
  | '0' :: 'x' :: hex => (digitsOf 16 hex).map fun n => .int n
  | _ =>
    match text.splitOn '.' with
    | [whole] => (digitsOf 10 whole).map fun n => .int n
    | [whole, places] =>
      if whole.isEmpty || places.isEmpty then none
      else (digitsOf 10 (whole ++ places)).map fun n => .decimal n places.length
    | _ => none

/-- The operand with the opposite sign. -/
def negated : AsmOperand → Option AsmOperand
  | .int n => some (.int (-n))
  | .decimal digits places => some (.decimal (-digits) places)
  | .reg _ => none
  | .axis _ => none

/-- A number with an optional minus sign. -/
def numberOf (text : List Char) : Option AsmOperand :=
  match text with
  | '-' :: rest => (unsignedOf rest).bind negated
  | _ => unsignedOf text

/-! ### Lines -/

/-- The text without spaces at its ends. -/
def trimmed (text : List Char) : List Char :=
  ((text.dropWhile (· == ' ')).reverse.dropWhile (· == ' ')).reverse

/-- An operand: `r0`..`r7`, `X`, `Y`, `Z`, or a number (R91). -/
def parseOperand (text : List Char) : Option AsmOperand :=
  match text with
  | ['X'] => some (.axis .x)
  | ['Y'] => some (.axis .y)
  | ['Z'] => some (.axis .z)
  | ['r', c] =>
    match digitOf c with
    | some d => if d < Config.numRegs then some (.reg (BitVec.ofNat 3 d)) else none
    | none => none
  | _ => numberOf text

/-- The mnemonics of the opcode map, in its order (R86). -/
def coreMnemonics : List Mnemonic :=
  [.nop, .li, .lih, .chkid, .encrng, .decrng, .encdr, .decdr, .encwk, .decwk, .setrng, .setdr, .setfr, .setst, .cpwr,
    .setms, .merge, .ldraw, .conv, .seed, .smooth, .rdfilt, .clrfilt, .sample]

/-- Every mnemonic a line may begin with (R86, R93). -/
def asmMnemonics : List AsmMnemonic := [.li32, .pwroff, .movb, .extb] ++ coreMnemonics.map .core

/-- The mnemonic with this name. -/
def parseMnemonic (text : List Char) : Option AsmMnemonic :=
  asmMnemonics.find? fun m => (asmMnemonicText m).toList == text

/-- A line: a mnemonic, a space, then operands separated by commas (R91). -/
def parseLine (line : List Char) : Option (AsmMnemonic × List AsmOperand) :=
  let body := trimmed line
  let operands := trimmed (body.dropWhile (· != ' '))
  match parseMnemonic (body.takeWhile (· != ' ')) with
  | none => none
  | some m =>
    if operands.isEmpty then some (m, [])
    else ((operands.splitOn ',').mapM fun t => parseOperand (trimmed t)).map fun ops => (m, ops)

/-- The words of a line (R91, R93, R95); `none` where the assembler refuses it. -/
def assembleLine (line : List Char) : Option (List Word) :=
  (parseLine line).bind fun p => (assemble p.1 p.2).map fun is => is.map encode

/-- The words of a program, one line after another (R91); `none` where the assembler refuses a line. -/
def assembleLines (lines : List (List Char)) : Option (List Word) := (lines.mapM assembleLine).map List.flatten

end Sys2Proof.Machine
end

