-- ==== Sys2Proof/Tests/Slice0.lean ====
section
/-! SUPPORT. Tests. Expected values are those of spec/95_test_vectors.md and of the examples in the rules; each word is
the one the spec writes out. The witnesses at the end meet the hypotheses of the obligations, clause by clause. -/

namespace Sys2Proof.Tests

open Sys2Proof.Machine Sys2Proof.Safety

/-! ### Helpers -/

/-- The state after reset with R1 and R2 holding these patterns. -/
def withR12 (a b : Word) : State := (State.reset.setReg 1 a).setReg 2 b

/-- The state after reset with one operand register set. -/
def withReg (r : RegIdx) (v : Word) : State := State.reset.setReg r v

/-- The state after reset with one operand register set and one axis seeded. -/
def withSeed (r : RegIdx) (v : Word) (a : Axis) (y : Word) : State := (withReg r v).seedAxis a y

/-- The word written to CMD leaves this value in a register and this value in STATUS. -/
def leaves (w : Word) (s : State) (r : RegIdx) (v status : Word) : Bool :=
  match runWord w s with
  | .next t => t.reg r == v && t.statusWord == status
  | .fault _ => false
  | .refused _ => false

/-- The word written to CMD leaves this filter state on an axis. -/
def leavesAxis (w : Word) (s : State) (a : Axis) (y : Word) (valid : Bool) : Bool :=
  match runWord w s with
  | .next t => t.filtOf a == y && t.fvOf a == valid
  | .fault _ => false
  | .refused _ => false

/-- The word written to CMD leaves this value in STATUS and changes nothing else of the block. -/
def leavesOnly (w : Word) (s : State) (status : Word) : Bool :=
  match runWord w s with
  | .next t => t.regs == s.regs && t.filt == s.filt && t.fv == s.fv && t.statusWord == status
  | .fault _ => false
  | .refused _ => false

/-- One step from a state whose host asks for this event leaves this answer last and this value in STATUS. -/
def answers (e : HostEvent) (s : State) (data : Option Word) (status : Word) : Bool :=
  match step { s with hostIn := [e] } with
  | .next t => t.hostOut.getLast? == data && t.statusWord == status
  | .fault _ => false
  | .refused _ => false

/-- One step from a state whose host asks for this event is refused. -/
def refuses (e : HostEvent) (s : State) : Bool :=
  match step { s with hostIn := [e] } with
  | .next _ => false
  | .fault _ => false
  | .refused r => r == .hostBadAccess

/-- The decoder gives this command. -/
def decodesTo (w : Word) (i : Instr) : Bool :=
  match decode w with
  | .ok j => i == j
  | .error _ => false

/-- The decoder rejects the word for this reason. -/
def rejects (w : Word) (e : DecodeError) : Bool :=
  match decode w with
  | .ok _ => false
  | .error f => e == f

/-! ### Well-formedness -/

theorem test_wellFormed_refuses_seed_axis3 : ¬ WellFormed (.seed 3#2 0) := by decide

theorem test_wellFormed_refuses_smooth_axis3 : ¬ WellFormed (.smooth 5 4 3#2 0x2000) := by decide

theorem test_wellFormed_refuses_sample_axis3 : ¬ WellFormed (.sample 5 3 3#2 0x2000) := by decide

theorem test_wellFormed_refuses_rdfilt_axis3 : ¬ WellFormed (.rdfilt 6 3#2) := by decide

theorem test_wellFormed_refuses_clrfilt_axis3 : ¬ WellFormed (.clrfilt 3#2) := by decide

theorem test_wellFormed_accepts_axis2 : WellFormed (.smooth 5 4 2#2 0x2000) := by decide

/-! ### Decoding, a word of every command written out from R81 and R86 -/

theorem test_decode_nop :
    decodesTo (0b00000#5 ++ 0b000#3 ++ 0b000#3 ++ 0b000#3 ++ 0b00#2 ++ 0x0000#16) (.nop) = true := by decide

theorem test_decode_li :
    decodesTo (0b00001#5 ++ 0b001#3 ++ 0b000#3 ++ 0b000#3 ++ 0b00#2 ++ 0x1234#16) (.li 1 0x1234) = true := by decide

theorem test_decode_lih :
    decodesTo (0b00010#5 ++ 0b001#3 ++ 0b000#3 ++ 0b000#3 ++ 0b00#2 ++ 0xDEAD#16) (.lih 1 0xDEAD) = true := by decide

theorem test_decode_chkid :
    decodesTo (0b00011#5 ++ 0b000#3 ++ 0b001#3 ++ 0b000#3 ++ 0b00#2 ++ 0x0000#16) (.chkid 1) = true := by decide

theorem test_decode_encrng :
    decodesTo (0b00100#5 ++ 0b010#3 ++ 0b001#3 ++ 0b000#3 ++ 0b00#2 ++ 0x0000#16) (.encrng 2 1) = true := by decide

theorem test_decode_decrng :
    decodesTo (0b00101#5 ++ 0b010#3 ++ 0b001#3 ++ 0b000#3 ++ 0b00#2 ++ 0x0000#16) (.decrng 2 1) = true := by decide

theorem test_decode_encdr :
    decodesTo (0b00110#5 ++ 0b010#3 ++ 0b001#3 ++ 0b000#3 ++ 0b00#2 ++ 0x0000#16) (.encdr 2 1) = true := by decide

theorem test_decode_decdr :
    decodesTo (0b00111#5 ++ 0b010#3 ++ 0b001#3 ++ 0b000#3 ++ 0b00#2 ++ 0x0000#16) (.decdr 2 1) = true := by decide

theorem test_decode_encwk :
    decodesTo (0b01000#5 ++ 0b010#3 ++ 0b001#3 ++ 0b000#3 ++ 0b00#2 ++ 0x0000#16) (.encwk 2 1) = true := by decide

theorem test_decode_decwk :
    decodesTo (0b01001#5 ++ 0b010#3 ++ 0b001#3 ++ 0b000#3 ++ 0b00#2 ++ 0x0000#16) (.decwk 2 1) = true := by decide

theorem test_decode_setrng :
    decodesTo (0b01010#5 ++ 0b011#3 ++ 0b001#3 ++ 0b010#3 ++ 0b00#2 ++ 0x0000#16) (.setrng 3 1 2) = true := by decide

theorem test_decode_setdr :
    decodesTo (0b01011#5 ++ 0b110#3 ++ 0b100#3 ++ 0b101#3 ++ 0b00#2 ++ 0x0000#16) (.setdr 6 4 5) = true := by decide

theorem test_decode_setfr :
    decodesTo (0b01100#5 ++ 0b011#3 ++ 0b001#3 ++ 0b000#3 ++ 0b00#2 ++ 0x0001#16) (.setfr 3 1 true) = true := by decide

theorem test_decode_setst :
    decodesTo (0b01101#5 ++ 0b011#3 ++ 0b001#3 ++ 0b000#3 ++ 0b00#2 ++ 0x0000#16) (.setst 3 1 false) = true := by decide

theorem test_decode_cpwr :
    decodesTo (0b01110#5 ++ 0b110#3 ++ 0b011#3 ++ 0b101#3 ++ 0b00#2 ++ 0x0001#16) (.cpwr 6 3 5 true) = true := by decide

theorem test_decode_setms :
    decodesTo (0b01111#5 ++ 0b100#3 ++ 0b100#3 ++ 0b000#3 ++ 0b00#2 ++ 0x0000#16) (.setms 4 4) = true := by decide

theorem test_decode_merge :
    decodesTo (0b10000#5 ++ 0b111#3 ++ 0b111#3 ++ 0b011#3 ++ 0b00#2 ++ 0x0003#16) (.merge 7 7 3 3) = true := by decide

theorem test_decode_ldraw :
    decodesTo (0b10001#5 ++ 0b011#3 ++ 0b001#3 ++ 0b010#3 ++ 0b00#2 ++ 0x0000#16) (.ldraw 3 1 2) = true := by decide

theorem test_decode_conv :
    decodesTo (0b10010#5 ++ 0b100#3 ++ 0b011#3 ++ 0b000#3 ++ 0b00#2 ++ 0x0000#16) (.conv 4 3) = true := by decide

theorem test_decode_seed :
    decodesTo (0b10011#5 ++ 0b000#3 ++ 0b100#3 ++ 0b000#3 ++ 0b10#2 ++ 0x0000#16) (.seed 2 4) = true := by decide

theorem test_decode_smooth :
    decodesTo (0b10100#5 ++ 0b101#3 ++ 0b100#3 ++ 0b000#3 ++ 0b01#2 ++ 0x2000#16) (.smooth 5 4 1 0x2000) = true := by decide

theorem test_decode_rdfilt :
    decodesTo (0b10101#5 ++ 0b110#3 ++ 0b000#3 ++ 0b000#3 ++ 0b10#2 ++ 0x0000#16) (.rdfilt 6 2) = true := by decide

theorem test_decode_clrfilt :
    decodesTo (0b10110#5 ++ 0b000#3 ++ 0b000#3 ++ 0b000#3 ++ 0b01#2 ++ 0x0000#16) (.clrfilt 1) = true := by decide

theorem test_decode_sample :
    decodesTo (0b10111#5 ++ 0b101#3 ++ 0b011#3 ++ 0b000#3 ++ 0b10#2 ++ 0x4000#16) (.sample 5 3 2 0x4000) = true := by decide

/-! ### Words that do not decode (95_test_vectors.md L2.5) -/

theorem test_reject_nop_imm : rejects 0x00000001#32 .unusedBitSet = true := by decide

theorem test_reject_opc18 : rejects 0xC0000000#32 .reservedOpcode = true := by decide

theorem test_reject_all_ones : rejects 0xFFFFFFFF#32 .reservedOpcode = true := by decide

theorem test_reject_li_rs1 : rejects 0x09200000#32 .unusedBitSet = true := by decide

theorem test_reject_setfr_imm1 : rejects 0x63200002#32 .unusedBitSet = true := by decide

theorem test_reject_cpwr_ax : rejects 0x73290001#32 .unusedBitSet = true := by decide

theorem test_reject_merge_imm8 : rejects 0x83280100#32 .unusedBitSet = true := by decide

theorem test_reject_seed_axis3 : rejects 0x98830000#32 .axisThree = true := by decide

theorem test_reject_smooth_axis3 : rejects 0xA5832000#32 .axisThree = true := by decide

theorem test_reject_smooth_rs2 : rejects 0xA5842000#32 .unusedBitSet = true := by decide

theorem test_reject_clrfilt_rd : rejects 0xB1010000#32 .unusedBitSet = true := by decide

/-- Decoding is checked before the range (60_exceptions.md R228). -/
theorem test_illegal_word_only_status : leavesOnly 0x53280001#32 (withR12 8 6) 0x09 = true := by decide

/-! ### Commands (95_test_vectors.md L2.1 to L2.4) -/

theorem test_nop_changes_nothing : leavesOnly 0x00000000#32 (withReg 1 0x12345678) 0x00 = true := by decide

theorem test_li_sign_extends : leaves 0x09008000#32 (State.reset) 1 0xFFFF8000 0x00 = true := by decide

theorem test_li_last_register : leaves 0x0F00FFFF#32 (State.reset) 7 0xFFFFFFFF 0x00 = true := by decide

theorem test_lih_keeps_low_half : leaves 0x1100DEAD#32 (withReg 1 0xFFFFBEEF) 1 0xDEADBEEF 0x00 = true := by decide

theorem test_lih_clears_high_half : leaves 0x12000000#32 (withReg 2 0x12345678) 2 0x00005678 0x00 = true := by decide

theorem test_chkid_ignores_high_bits : leavesOnly 0x18200000#32 (withReg 1 0xFFFFFFE5) 0x00 = true := by decide

theorem test_chkid_mismatch : leavesOnly 0x18200000#32 (withReg 1 0x00000012) 0x0B = true := by decide

theorem test_encrng_sixteen : leaves 0x22200000#32 (withReg 1 0x00000010) 2 0x00000003 0x00 = true := by decide

theorem test_encrng_checks_whole_word : leavesOnly 0x22200000#32 (withReg 1 0x00000102) 0x0A = true := by decide

theorem test_decrng_three : leaves 0x2A200000#32 (withReg 1 0x00000003) 2 0x00000010 0x00 = true := by decide

theorem test_decrng_whole_byte : leaves 0x2A200000#32 (withReg 1 0x0000000B) 2 0xFFFFFFFF 0x00 = true := by decide

theorem test_encdr_fifteen : leaves 0x32200000#32 (withReg 1 0x0000000F) 2 0x0000000F 0x00 = true := by decide

theorem test_encdr_sixteen_fails : leavesOnly 0x32200000#32 (withReg 1 0x00000010) 0x0A = true := by decide

theorem test_decdr_fifteen : leaves 0x3A200000#32 (withReg 1 0x0000000F) 2 0x0000000F 0x00 = true := by decide

theorem test_decdr_sixteen : leaves 0x3A200000#32 (withReg 1 0x00000010) 2 0xFFFFFFFF 0x00 = true := by decide

theorem test_encwk_eight : leaves 0x42200000#32 (withReg 1 0x00000008) 2 0x00000000 0x00 = true := by decide

theorem test_encwk_three_fails : leavesOnly 0x42200000#32 (withReg 1 0x00000003) 0x0A = true := by decide

theorem test_decwk_three : leaves 0x4A200000#32 (withReg 1 0x00000003) 2 0x00000001 0x00 = true := by decide

theorem test_decwk_four : leaves 0x4A200000#32 (withReg 1 0x00000004) 2 0xFFFFFFFF 0x00 = true := by decide

theorem test_setrng_keeps_other_bits :
    leaves 0x53280000#32 (withR12 0x1234560B 0x00000004) 3 0x00000009 0x00 = true := by decide

theorem test_setrng_six_fails : leavesOnly 0x53280000#32 (withR12 0x00000008 0x00000006) 0x0A = true := by decide

theorem test_setdr_clears_code :
    leaves 0x5B280000#32 (withR12 0x000000FF 0x00000000) 3 0x000000F0 0x00 = true := by decide

theorem test_setdr_sixteen_fails : leavesOnly 0x5B280000#32 (withR12 0x0000000A 0x00000010) 0x0A = true := by decide

theorem test_setfr_sets_not_toggles : leaves 0x63200001#32 (withReg 1 0x00000008) 3 0x00000008 0x00 = true := by decide

theorem test_setfr_clears : leaves 0x63200000#32 (withReg 1 0x000000FF) 3 0x000000F7 0x00 = true := by decide

theorem test_setst_sets : leaves 0x6B200001#32 (withReg 1 0x0000000B) 3 0x0000008B 0x00 = true := by decide

theorem test_setst_clears : leaves 0x6B200000#32 (withReg 1 0x000000FF) 3 0x0000007F 0x00 = true := by decide

theorem test_cpwr_enables : leaves 0x73280001#32 (withR12 0x000000EF 0x00000004) 3 0x000000FD 0x00 = true := by decide

theorem test_cpwr_disable_checks_nothing :
    leaves 0x73280000#32 (withR12 0x0000003B 0x00000005) 3 0x00000000 0x00 = true := by decide

theorem test_setms_uses_low_byte : leaves 0x7B200000#32 (withReg 1 0x00000108) 3 0x00000008 0x00 = true := by decide

theorem test_setms_sets_bit3 : leaves 0x7B200000#32 (withReg 1 0x00000013) 3 0x0000001B 0x00 = true := by decide

theorem test_merge_high_nibble :
    leaves 0x832800F0#32 (withR12 0x00000012 0x000000AB) 3 0x000000A2 0x00 = true := by decide

theorem test_merge_mask_zero :
    leaves 0x83280000#32 (withR12 0x000001AA 0x00000055) 3 0x000000AA 0x00 = true := by decide

theorem test_ldraw_sign_extends :
    leaves 0x8B280000#32 (withR12 0x00000000 0x00000080) 3 0xFFFF8000 0x00 = true := by decide

theorem test_ldraw_low_byte_first :
    leaves 0x8B280000#32 (withR12 0x000001FF 0x00000100) 3 0x000000FF 0x00 = true := by decide

theorem test_conv_256 : leaves 0x94600000#32 (withReg 3 0x00000100) 4 0x0009CE81 0x00 = true := by decide

theorem test_conv_lowest_sample : leaves 0x94600000#32 (withReg 3 0x00008000) 4 0xFB18BFB1 0x00 = true := by decide

theorem test_seed_defines_axis : leavesAxis 0x98800000#32 (withReg 4 0x00000064) .x 0x00000064 true = true := by decide

theorem test_seed_overwrites :
    leavesAxis 0x98820000#32 (withSeed 4 0xFFFFFF9C .z 0x00000005) .z 0xFFFFFF9C true = true := by decide

theorem test_smooth_rounds_half_up :
    leaves 0xA5802000#32 (withSeed 4 0xFFFFFFFF .x 0x00000000) 5 0x00000000 0x10 = true := by decide

theorem test_smooth_clamps_weight :
    leaves 0xA580C000#32 (withSeed 4 0x00000007 .x 0x00000003) 5 0x00000003 0x10 = true := by decide

theorem test_sample_updates_filter :
    leavesAxis 0xBD602000#32 (withSeed 3 0x00000078 .x 0x0003D4AA) .x 0x000436BB true = true := by decide

theorem test_sample_unseeded : leavesOnly 0xBD612000#32 (withReg 3 0x00000100) 0x0C = true := by decide

theorem test_rdfilt_reads :
    leaves 0xAE020000#32 (withSeed 0 0x00000000 .z 0x00000064) 6 0x00000064 0x40 = true := by decide

theorem test_rdfilt_unseeded : leavesOnly 0xAE020000#32 (withReg 6 0x00000055) 0x0C = true := by decide

theorem test_clrfilt_discards :
    leavesAxis 0xB0010000#32 (withSeed 0 0x00000000 .y 0x0000006E) .y 0x00000000 false = true := by decide

theorem test_clrfilt_unseeded : leavesOnly 0xB0010000#32 (State.reset) 0x00 = true := by decide

/-! ### Host window, reset and steps (95_test_vectors.md L2.6) -/

/-- STATUS with ERR = 4, LASTF = 1 and axis X seeded. -/
def failedSeeded : State := (State.reset.seedAxis .x 7).fail .filterNotSeeded

theorem test_cmd_reads_zero : answers (hostRead 0x00) failedSeeded (some 0) 0x1C = true := by decide

theorem test_devmap0 : answers (hostRead 0x40) State.reset (some 0x312D2C00) 0 = true := by decide

theorem test_devmap1 : answers (hostRead 0x44) State.reset (some 0xE5363432) 0 = true := by decide

theorem test_status_reads : answers (hostRead 0x04) failedSeeded (some 0x1C) 0x1C = true := by decide

theorem test_status_write_clears : answers (hostWrite 0x04 0xFFFFFFFF) failedSeeded none 0x10 = true := by decide

theorem test_filt_write_seeds : answers (hostWrite 0x2C 0x2A) State.reset none 0x20 = true := by decide

theorem test_filt_reads_unseeded : answers (hostRead 0x30) State.reset (some 0) 0 = true := by decide

theorem test_reserved_reads_zero : answers (hostRead 0x34) State.reset (some 0) 0 = true := by decide

theorem test_operand_register_reads :
    answers (hostRead 0x10) (withReg 2 0x12345678) (some 0x12345678) 0 = true := by decide

theorem test_reset_clears_status : answers (.reset) failedSeeded none 0 = true := by decide

theorem test_byte_read_refused : refuses (.access ⟨5, 1, .read⟩) State.reset = true := by decide

theorem test_misaligned_read_refused : refuses (.access ⟨2, 4, .read⟩) State.reset = true := by decide

theorem test_read_past_window_refused : refuses (.access ⟨256, 4, .read⟩) State.reset = true := by decide

theorem test_read_below_window_refused : refuses (.access ⟨-4, 4, .read⟩) State.reset = true := by decide

theorem test_withFetchWord_runs :
    (match step (State.reset.withFetchWord 32 0x09001234) with
      | .next t => t.reg 1 == 0x1234
      | .fault _ => false
      | .refused _ => false) = true := by decide

theorem test_decodeTableWord : decodeTableWord 32 0xB0010000 = some (.clrfilt 1) := by decide

theorem test_idle_step :
    (match step failedSeeded with
      | .next t => t == failedSeeded
      | .fault _ => false
      | .refused _ => false) = true := by decide

/-! ### Register access (20_memory.md R60, R62, R63) -/

/-- R60 with the identification byte of R58. -/
theorem test_read_byte : readByte (.ok 0xE5#8) = .ok 0xE5 := rfl

theorem test_read_byte_fails : readByte (.error .busError) = .error .busError := rfl

theorem test_write_byte : writeByte (.ok ()) = .ok () ∧ writeByte (.error .busError) = .error .busError := ⟨rfl, rfl⟩

/-- One word read at each of the addresses R63 gives. -/
theorem test_read_axes_transactions : ∀ t, t ∈ readAxesTransactions ↔
    t = .read 0x32#8 2 ∨ t = .read 0x34#8 2 ∨ t = .read 0x36#8 2 := by
  simp [readAxesTransactions, readWordTransactions, axisDataReg, deviceAddress]

/-! ### Assembler (30_encoding.md R91 to R93) -/

/-- R92: 0.5 encodes as 0x2000. -/
theorem test_asm_decimal_weight : assembleLine "SMOOTH r5, r4, Y, 0.5".toList = some [0xA5812000#32] := by decide

/-- R92: 1.0 encodes as 0x4000. -/
theorem test_asm_weight_one : weightOf (.decimal 10 1) = some 0x4000#16 := by decide

/-- A tie goes away from zero: -0.000030517578125 is half of -2^-14. -/
theorem test_asm_weight_tie : weightOf (.decimal (-30517578125) 15) = some 0xFFFF#16 := by decide

/-- 2.0 would be 32768. -/
theorem test_asm_weight_two_refused : weightOf (.decimal 20 1) = none := by decide

/-- 95_test_vectors.md P6. -/
theorem test_asm_li32 : assembleLine "LI32 r1, 0x1234560B".toList = some [0x0900560B#32, 0x11001234#32] := by decide

theorem test_asm_extb_same_register : assembleLine "EXTB r1, r1, 3".toList = none := by decide

/-- 95_test_vectors.md P2. -/
theorem test_asm_pwroff : assembleLine "PWROFF r4".toList = some [0x74000000#32] := by decide

theorem test_asm_li_range : assembleLine "LI r1, 65536".toList = none := by decide

theorem test_asm_text :
    lineText (.core .smooth) [.reg 5, .reg 4, .axis .y, .decimal 5 1] = "SMOOTH r5, r4, Y, 0.5" := by decide

/-! ### Witnesses: states and operands that meet the hypotheses of the obligations, one for each clause -/
/-- `DecodeOfEncodeIsIdentity`. -/
theorem witness_wellFormed_command : WellFormed (.sample 7 7 2#2 0xFFFF#16) := by decide

/-- `EncodeOfDecodeIsIdentity`. -/
theorem witness_decodable_word : decode 0xBFE2FFFF#32 = .ok (.sample 7 7 2#2 0xFFFF#16) := rfl

/-- `IllegalWordsAreRejectedAndFail`: a reserved opcode. -/
theorem witness_illegal_reserved : Illegal 0xC0000000#32 := trivial

/-- `IllegalWordsAreRejectedAndFail`: a 1 in an unused bit. -/
theorem witness_illegal_unused_bit : Illegal 0x00000001#32 := .inl ⟨0, by decide, by decide, by decide⟩

/-- `IllegalWordsAreRejectedAndFail`: AX = 3. -/
theorem witness_illegal_axis3 : Illegal 0xB0030000#32 := .inr ⟨by decide, by decide⟩

/-- `IllegalWordsAreRejectedAndFail`: a word that is not illegal. -/
theorem witness_legal_word : ¬ Illegal 0xB0020000#32 := by
  rintro (⟨j, hj, h1, h2⟩ | ⟨_, h⟩)
  · revert h1 h2; revert j; decide
  · revert h; decide

/-- `NopWord0ChangesOnlyLastf`: words with OPC 0. -/
theorem witness_opcode_zero : (0x00000000#32).toNat / 2 ^ 27 = 0 ∧ (0x07FFFFFF#32).toNat / 2 ^ 27 = 0 := by decide

/-- `ChkidComparesLowByte`: both clauses. -/
theorem witness_chkid : ((withReg 1 0xFFFFFFE5).reg 1).toNat % 256 = 0xE5 ∧ ((withReg 1 0x12).reg 1).toNat % 256 ≠ 0xE5 := by
  decide

/-- `EncrngEncodesRangeOrFails`, `SetrngComposesDataFormat` and `CodecRoundTrips`: the ends of the domain, and values
beside it. -/
theorem witness_range : ((withReg 2 2).reg 2).toNat = 2 ∧ (2, 0) ∈ rangeCodes ∧ ((withReg 2 16).reg 2).toNat = 16 ∧
    (16, 3) ∈ rangeCodes ∧ (∀ p ∈ rangeCodes, ((withReg 2 0).reg 2).toNat ≠ p.1) ∧
    (∀ p ∈ rangeCodes, ((withReg 2 3).reg 2).toNat ≠ p.1) ∧ (∀ p ∈ rangeCodes, ((withReg 2 32).reg 2).toNat ≠ p.1) ∧
    ∀ p ∈ rangeCodes, ((withReg 2 0x102).reg 2).toNat ≠ p.1 := by decide

/-- `DecrngDecodesRangeOrUnrec`, `DecwkDecodesWakeOrUnrec`, `CodecRoundTrips` and `UnrecIsRejectedByEveryEncoder`: the
ends of the patterns, and the first above them. -/
theorem witness_pattern : ((withReg 1 0).reg 1).toNat = 0 ∧ (2, 0) ∈ rangeCodes ∧ (8, 0) ∈ wakeCodes ∧
    ((withReg 1 3).reg 1).toNat = 3 ∧ (16, 3) ∈ rangeCodes ∧ (1, 3) ∈ wakeCodes ∧ ((withReg 1 3).reg 1).toNat ≤ 3 ∧
    3 < ((withReg 1 4).reg 1).toNat := by decide

/-- `EncdrEncodesRateOrFails`, `DecdrDecodesRateOrUnrec`, `SetdrComposesBwRate`, `CodecRoundTrips` and
`UnrecIsRejectedByEveryEncoder`: both sides of the end of the domain. -/
theorem witness_rate : ((withReg 2 15).reg 2).toNat ≤ 15 ∧ 15 < ((withReg 2 16).reg 2).toNat := by decide

/-- `EncwkEncodesWakeOrFails`, `CpwrComposesPowerControl` and `CodecRoundTrips`: the ends of the domain, and values beside
it. -/
theorem witness_wake : ((withReg 2 1).reg 2).toNat = 1 ∧ (1, 3) ∈ wakeCodes ∧ ((withReg 2 8).reg 2).toNat = 8 ∧
    (8, 0) ∈ wakeCodes ∧ (∀ p ∈ wakeCodes, ((withReg 2 0).reg 2).toNat ≠ p.1) ∧
    (∀ p ∈ wakeCodes, ((withReg 2 3).reg 2).toNat ≠ p.1) ∧ ∀ p ∈ wakeCodes, ((withReg 2 16).reg 2).toNat ≠ p.1 := by
  decide

/-- `SmoothFiltersSample`, `SampleConvertsThenFilters` and `RdfiltReadsSeededAxis`: a seeded and an unseeded axis. -/
theorem witness_seeded : (withSeed 4 120 .y 100).fvOf .y = true ∧ (withSeed 4 120 .y 100).fvOf .z = false := by decide

/-- The states of the witnesses meet the invariant. -/
theorem witness_inv_seeded : Inv (withSeed 4 120 .y 100) :=
  ⟨by decide, by decide, fun a => by cases a <;> decide⟩

/-- A state after a failure meets it too. -/
theorem witness_inv_failed : Inv failedSeeded := ⟨by decide, by decide, fun a => by cases a <;> decide⟩

/-- `ClrfiltDiscardsAxis` and `SavedFilterStateIsRestored`: the invariant with an unseeded axis; and a seeded one. -/
theorem witness_unseeded_inv : Inv failedSeeded ∧ failedSeeded.fvOf .z = false ∧ failedSeeded.fvOf .x = true :=
  ⟨witness_inv_failed, by decide, by decide⟩

/-- `EveryCommandUpdatesStatus` and `FailedCommandChangesOnlyStatus`: a word that succeeds, and one for each error. -/
theorem witness_wordError : wordError State.reset 0x00000000#32 = none ∧
    wordError State.reset 0xC0000000#32 = some .illegalCommand ∧
    wordError State.reset 0x22200000#32 = some .invalidConfigurationValue ∧
    wordError State.reset 0x18200000#32 = some .identityMismatch ∧
    wordError State.reset 0xAE020000#32 = some .filterNotSeeded := ⟨rfl, rfl, rfl, rfl, rfl⟩

/-- `ErrIsWrittenOnlyWhenZero`: a failure with ERR = 0, which changes ERR. -/
theorem witness_first_error : ∃ t, runWord 0xC0000000#32 State.reset = .next t ∧ State.reset.err = 0#3 ∧
    t.err ≠ State.reset.err ∧ wordError State.reset 0xC0000000#32 = some .illegalCommand ∧ State.reset.err.toNat ≤ 4 :=
  ⟨_, rfl, rfl, by decide, rfl, by decide⟩

/-- `ErrIsWrittenOnlyWhenZero`: a failure with ERR = 4. -/
theorem witness_later_error : ∃ t, runWord 0xC0000000#32 failedSeeded = .next t ∧ failedSeeded.err ≠ 0#3 ∧
    failedSeeded.err.toNat ≤ 4 := ⟨_, rfl, by decide, by decide⟩

/-- `CmdWriteRunsDecodedCommand`: a decodable word and one that is not. -/
theorem witness_decode_both : decode 0x09001234#32 = .ok (.li 1 0x1234#16) ∧
    decode 0xF8000000#32 = .error .reservedOpcode := ⟨rfl, rfl⟩

/-- `StepKeepsInvariant`: a step that fails a command, from a state that meets the invariant. -/
theorem witness_step_inv : ∃ t, Inv State.reset ∧ step (State.reset.withFetchWord 32 0xC0000000) = .next t ∧
    Inv (State.reset.withFetchWord 32 0xC0000000) :=
  ⟨_, ⟨by decide, by decide, fun a => by cases a <;> decide⟩, rfl,
    ⟨by decide, by decide, fun a => by cases a <;> decide⟩⟩

/-- `ValidBitChangesOnlyBySeedOrClear`: FV0 rises by SEED. -/
theorem witness_rise_seed : ∃ t, step { State.reset with hostIn := [hostWrite 0x00 0x98800000] } = .next t ∧
    State.reset.fvOf .x = false ∧ t.fvOf .x = true := ⟨_, rfl, by decide, by decide⟩

/-- `ValidBitChangesOnlyBySeedOrClear`: FV2 rises by a host write of FILT2. -/
theorem witness_rise_write : ∃ t, step { State.reset with hostIn := [hostWrite 0x30 9] } = .next t ∧
    State.reset.fvOf .z = false ∧ t.fvOf .z = true := ⟨_, rfl, by decide, by decide⟩

/-- `ValidBitChangesOnlyBySeedOrClear`: FV0 falls by CLRFILT. -/
theorem witness_fall_clrfilt : ∃ t, step { failedSeeded with hostIn := [hostWrite 0x00 0xB0000000] } = .next t ∧
    failedSeeded.fvOf .x = true ∧ t.fvOf .x = false := ⟨_, rfl, by decide, by decide⟩

/-- `ValidBitChangesOnlyBySeedOrClear`: FV0 falls by reset. -/
theorem witness_fall_reset : ∃ t, step { failedSeeded with hostIn := [HostEvent.reset] } = .next t ∧
    failedSeeded.fvOf .x = true ∧ t.fvOf .x = false := ⟨_, rfl, by decide, by decide⟩

/-- `CommandsDoNotReadStatus`: two states that differ in STATUS. -/
theorem witness_agree_but_status : AgreeButStatus failedSeeded (State.reset.seedAxis .x 7) ∧
    failedSeeded ≠ State.reset.seedAxis .x 7 := ⟨⟨rfl, rfl, rfl, rfl, rfl⟩, by decide⟩

/-- `AxesAreIndependent`: a command of axis Y, and two states that differ in axis X. -/
theorem witness_agree_but_axis :
    Instr.axisField? (.smooth 5 4 (axisFieldOf .y) 0x2000#16) ≠ some (axisFieldOf .x) ∧
      AgreeButAxis .x (State.reset.seedAxis .x 7) State.reset ∧ State.reset.seedAxis .x 7 ≠ State.reset :=
  ⟨by decide, ⟨rfl, rfl, rfl, rfl, rfl, fun a h => by cases a <;> first | exact absurd rfl h | decide⟩, by decide⟩

/-- `CommandFrame`: a register, an axis and an ERR that the command must keep. -/
theorem witness_frame : ∃ t, exec (.smooth 5 4 0#2 0x2000#16) failedSeeded = .next t ∧
    destReg (.smooth 5 4 0#2 0x2000#16) ≠ some 4 ∧ filtWritten (.smooth 5 4 0#2 0x2000#16) ≠ some .y ∧
    fvWritten (.smooth 5 4 0#2 0x2000#16) ≠ some .x ∧ failedSeeded.err ≠ 0#3 :=
  ⟨_, rfl, by decide, by decide, by decide, by decide⟩

/-- `IllFormedCommandsAreIllegal`. -/
theorem witness_ill_formed : ¬ WellFormed (.clrfilt 3#2) := by decide

/-- `ResetZeroesTheBlock`: a defined access and a reset before the reset. -/
theorem witness_event_defined : eventDefined (hostWrite 0x00 0x09001234) = true ∧ eventDefined HostEvent.reset = true := by
  decide

/-- `HostReadsAndWritesFilterRegisters`: a SEED from a register that holds the value written. -/
theorem witness_seed_like_write : ∃ u, (withReg 4 0x2A).reg 4 = 0x2A#32 ∧
    exec (.seed (axisFieldOf .y) 4) (withReg 4 0x2A) = .next u := ⟨_, by decide, rfl⟩

/-- `ReservedOffsetsReadZeroIgnoreWrites`: the ends of both reserved ranges. -/
theorem witness_reserved_offsets : ∀ off ∈ [0x34, 0x3C, 0x48, 0xFC],
    off % 4 = 0 ∧ ((0x34 ≤ off ∧ off ≤ 0x3C) ∨ (0x48 ≤ off ∧ off ≤ 0xFC)) := by decide

/-- `UndefinedAccessesHaveNoStep`: defined accesses at both ends of the window, and one undefined for each reason. -/
theorem witness_accesses :
    (∀ a ∈ [(⟨0, 4, .read⟩ : HostAccess), ⟨252, 4, .write 1⟩],
      a.bytes = 4 ∧ a.offset % 4 = 0 ∧ 0 ≤ a.offset ∧ a.offset < 256) ∧
    ∀ a ∈ [(⟨0, 2, .read⟩ : HostAccess), ⟨2, 4, .read⟩, ⟨-4, 4, .write 1⟩, ⟨256, 4, .read⟩],
      ¬ (a.bytes = 4 ∧ a.offset % 4 = 0 ∧ 0 ≤ a.offset ∧ a.offset < 256) := by decide

/-- `WindowStartsAtHostBase`: the last word of the window, for every HOST_BASE. -/
theorem witness_last_word : definedOffset (accessAt (Config.hostBase + 0xFC) 4 .read) = some 0xFC :=
  definedOffset_eq_some.mpr ⟨rfl, by simp [accessAt], by decide, by decide⟩

/-- `ObedientHostIsServedToTheEnd`: a host with a failing command, a read and a reset to come. -/
theorem witness_obedient :
    hostObedient { State.reset with hostIn := [hostWrite 0x00 0xC0000000, hostRead 0x04, HostEvent.reset] } = true := by
  decide

/-- `CodecRoundTrips`: a range and a wake frequency that have codes. -/
theorem witness_has_code : (∃ p ∈ rangeCodes, ((withReg 1 16).reg 1).toNat = p.1) ∧
    ∃ p ∈ wakeCodes, ((withReg 1 8).reg 1).toNat = p.1 :=
  ⟨⟨(16, 3), by decide, by decide⟩, (8, 0), by decide, by decide⟩

/-- `RmwCommandsKeepUnownedBits`: every read-modify-write command, with operands in its domain. -/
theorem witness_rmw : ∀ i ∈ [Instr.setrng 3 1 2, .setdr 3 1 2, .setfr 3 1 true, .setst 3 1 false, .setms 3 1,
    .merge 3 1 2 0xF0#8, .cpwr 3 1 2 true, .cpwr 3 1 2 false],
    (rmwOwnership i).isSome = true ∧ errorOf (withR12 0xFF 8) i = none := by decide

/-- `ConversionLaws`: the ends of the raw sample. -/
theorem witness_raw_ends : (-32768 : Int) ≤ -32768 ∧ (-32768 : Int) ≤ 32767 ∧ (32767 : Int) ≤ 32767 := by decide

/-- `SmoothingLaws` and `ExtremeWeightsFreezeOrPass`: the immediates with clamped weight 0 and 1, at their ends. -/
theorem witness_weights : (withSeed 4 7 .x 3).fvOf .x = true ∧
    (∀ w ∈ [0x0000#16, 0x8000#16, 0xFFFF#16], w.toInt ≤ 0 ∧ weightQ w = 0) ∧
    ∀ w ∈ [0x4000#16, 0x7FFF#16], 16384 ≤ w.toInt ∧ weightQ w = 16384 :=
  ⟨by decide, by simp [weightQ], by simp [weightQ]⟩

/-- `UnrecIsRejectedByEveryEncoder`: a register that holds UNREC. -/
theorem witness_unrec : (withReg 2 0xFFFFFFFF).reg 2 = 0xFFFFFFFF#32 := by decide

/-- `PseudoInstructionsHaveTheirEffect`: EXTB of two registers. -/
theorem witness_extb : (7 : RegIdx) ≠ 3 := by decide

/-- `WeightOperandsRoundToNearest`: a decimal weight half way between two multiples of 2^-14, one in range and one
outside it. -/
theorem witness_weight_tie : (2 : Int) * |(-1) * 10 ^ 15 - (-30517578125) * 16384| = 10 ^ 15 ∧
    weightOf (.decimal (-30517578125) 15) = some 0xFFFF#16 ∧ weightOf (.decimal 20 1) = none := by decide

/-- `AssemblerYieldsTheDecodableWords`: a line and its word. -/
theorem witness_assembled : ∃ i, assembleCore .smooth [.reg 5, .reg 4, .axis .y, .decimal 5 1] = some i ∧
    encode i = 0xA5812000#32 := ⟨.smooth 5 4 1#2 0x2000#16, rfl, rfl⟩

/-- `ReadWordIsLittleEndianSigned`: registers that hold the two bytes, and a bus that answers all three reads. -/
theorem witness_read_word : ((withR12 0x1FF 0x180).reg 1).toNat % 256 = (0xFF#8).toNat ∧
    ((withR12 0x1FF 0x180).reg 2).toNat % 256 = (0x80#8).toNat ∧
    readAxes (.ok (0x64#8, 0x00#8)) (.ok (0x9C#8, 0xFF#8)) (.ok (0x00#8, 0x80#8)) = .ok (100, -100, -32768) :=
  ⟨by decide, by decide, rfl⟩

/-- `ReadWordIsLittleEndianSigned`: a bus that fails one read fails them all. -/
theorem witness_read_axes_fails : readAxes (.ok (0x64#8, 0x00#8)) (.error .busError) (.ok (0x00#8, 0x80#8)) =
    .error .busError := rfl

end Sys2Proof.Tests
end

section
/-! SUPPORT. Which error a command raises is what Safety's `errorOf` says (spec 60_exceptions.md R221 to R228). -/

namespace Sys2Proof.Laws

open Sys2Proof.Machine Sys2Proof.Safety

/-- The error a command's body raises, if it raises one. -/
def raisedError {α : Type} : Except CmdError α → Option CmdError
  | .ok _ => none
  | .error e => some e

@[simp] theorem raisedError_ok {α : Type} (x : α) : raisedError (.ok x) = none := rfl

@[simp] theorem raisedError_error {α : Type} (e : CmdError) : raisedError (.error e : Except CmdError α) = some e := rfl

@[simp] theorem raisedError_map {α β : Type} (f : α → β) (x : Except CmdError α) :
    raisedError (x.map f) = raisedError x := by
  cases x <;> rfl

theorem rangeDomain_eq (g : Word) : rangeDomain g = decide (g = 2#32 ∨ g = 4#32 ∨ g = 8#32 ∨ g = 16#32) := by
  simp [rangeDomain, ← BitVec.toNat_inj]

theorem wakeDomain_eq (f : Word) : wakeDomain f = decide (f = 8#32 ∨ f = 4#32 ∨ f = 2#32 ∨ f = 1#32) := by
  simp [wakeDomain, ← BitVec.toNat_inj]

@[simp] theorem raisedError_encodeRange (g : Word) : raisedError (encodeRange g) = domainError (rangeDomain g) := by
  rw [rangeDomain_eq, encodeRange]
  split_ifs <;> simp_all [domainError]

@[simp] theorem raisedError_encodeRate (k : Word) : raisedError (encodeRate k) = domainError (rateDomain k) := by
  rw [rateDomain, encodeRate]
  split_ifs with h
  · simp [domainError, h]
  · simp [domainError, Nat.le_of_not_lt h]

@[simp] theorem raisedError_encodeWake (f : Word) : raisedError (encodeWake f) = domainError (wakeDomain f) := by
  rw [wakeDomain_eq, encodeWake]
  split_ifs <;> simp_all [domainError]

theorem raisedError_withAxis (ax : AxisField) (f : Axis → State) :
    raisedError (withAxis ax fun a => .ok (f a)) = axisError ax := by
  cases h : axisOf ax with
  | none => simp [withAxis_of_none h, axisError, h]
  | some a => simp [withAxis_of_some h, axisError, h]

theorem raisedError_withSeeded (s : State) (ax : AxisField) (f : Axis → Word → State) :
    raisedError (withAxis ax fun a => withSeeded s a fun y => .ok (f a y)) = seededError s ax := by
  cases h : axisOf ax with
  | none => simp [withAxis_of_none h, seededError, h]
  | some a =>
    cases hv : s.fvOf a with
    | false => simp [withAxis_of_some h, withSeeded_of_unseeded hv, seededError, h, hv]
    | true => simp [withAxis_of_some h, withSeeded_of_seeded hv, seededError, h, hv]

theorem byteOf_eq_expectedDevid_iff (s : State) (r : RegIdx) :
    s.byteOf r = expectedDevid ↔ (s.reg r).toNat % 256 = 0xE5 := by
  rw [← BitVec.toNat_inj, byteOf_toNat]
  rfl

/-- A command ends by a body that raises exactly the error `errorOf` names. -/
theorem exec_raises_errorOf (i : Instr) (s : State) :
    ∃ body, exec i s = conclude s body ∧ raisedError body = errorOf s i := by
  cases i with
  | nop | li | lih | decrng | decdr | decwk | setfr | setst | setms | merge | ldraw | conv => exact ⟨.ok _, rfl, rfl⟩
  | chkid rs1 =>
    refine ⟨_, rfl, ?_⟩
    simp only [errorOf, ne_eq, byteOf_eq_expectedDevid_iff]
    split_ifs <;> rfl
  | encrng _ g | setrng _ _ g =>
    exact ⟨_, rfl, (raisedError_map _ _).trans (raisedError_encodeRange (s.reg g))⟩
  | encdr _ k | setdr _ _ k =>
    exact ⟨_, rfl, (raisedError_map _ _).trans (raisedError_encodeRate (s.reg k))⟩
  | encwk _ f => exact ⟨_, rfl, (raisedError_map _ _).trans (raisedError_encodeWake (s.reg f))⟩
  | cpwr _ _ f enable =>
    cases enable with
    | false => exact ⟨.ok _, rfl, rfl⟩
    | true => exact ⟨_, rfl, (raisedError_map _ _).trans (raisedError_encodeWake (s.reg f))⟩
  | seed ax | clrfilt ax => exact ⟨_, rfl, raisedError_withAxis ax _⟩
  | smooth _ _ ax | sample _ _ ax | rdfilt _ ax => exact ⟨_, rfl, raisedError_withSeeded s ax _⟩

theorem exec_of_errorOf_some {i : Instr} {s : State} {c : CmdError} (h : errorOf s i = some c) :
    exec i s = .next (s.fail c) := by
  obtain ⟨body, hb, he⟩ := exec_raises_errorOf i s
  rw [hb]
  cases body <;> simp_all

theorem runWord_of_wordError {w : Word} {s : State} {c : CmdError} (h : wordError s w = some c) :
    runWord w s = .next (s.fail c) := by
  unfold wordError at h
  split at h
  · rename_i e hd
    cases h
    exact runWord_of_illegal s hd
  · rename_i i hd
    rw [runWord_of_decode s hd]
    exact exec_of_errorOf_some h

/-- Safety's `afterFailure` is the state the model's failed commands leave. -/
theorem afterFailure_code (s : State) (c : CmdError) : afterFailure s c.code = s.fail c := rfl

end Sys2Proof.Laws
end

section
/-! SUPPORT. What a command leaves unchanged (spec 10_state.md R22, R27), and how it moves ERR (R30). -/

namespace Sys2Proof.Laws

open Sys2Proof.Machine Sys2Proof.Safety

section
variable {i : Instr} {s t : State} (h : exec i s = .next t)
include h

theorem exec_host : t.hostIn = s.hostIn ∧ t.hostOut = s.hostOut := by
  rcases exec_cases h with ⟨_, rfl⟩ | rfl | ⟨_, _, _, rfl⟩ | ⟨_, _, _, _, _, rfl⟩ | ⟨_, _, _, _, rfl⟩ |
    ⟨_, _, _, _, _, _, rfl⟩ <;> exact ⟨rfl, rfl⟩

/-- ERR is left alone, or it was 0 and the command failed (R30). -/
theorem exec_err : t.err = s.err ∨ s.err = 0#3 ∧ ∃ e : CmdError, t.err = e.code := by
  rcases exec_cases h with ⟨e, rfl⟩ | rfl | ⟨_, _, _, rfl⟩ | ⟨_, _, _, _, _, rfl⟩ | ⟨_, _, _, _, rfl⟩ |
    ⟨_, _, _, _, _, _, rfl⟩
  · by_cases h0 : s.err = 0#3
    · exact .inr ⟨h0, e, by simp [h0]⟩
    · exact .inl (recordError_of_ne _ h0)
  all_goals exact .inl rfl

theorem exec_reg_of_ne {r : RegIdx} (hr : destReg i ≠ some r) : t.reg r = s.reg r := by
  rcases exec_cases h with ⟨_, rfl⟩ | rfl | ⟨rd, v, hd, rfl⟩ | ⟨_, _, _, _, _, rfl⟩ | ⟨_, _, _, _, rfl⟩ |
    ⟨rd, a, v, hd, _, _, rfl⟩
  case inr.inr.inl | inr.inr.inr.inr.inr =>
    have hne : r ≠ rd := fun hrd => hr (hrd ▸ hd)
    simp [State.setReg_reg_of_ne _ _ hne]
  all_goals rfl

theorem exec_filtOf_of_ne {a : Axis} (ha : filtWritten i ≠ some a) : t.filtOf a = s.filtOf a := by
  rcases exec_cases h with ⟨_, rfl⟩ | rfl | ⟨_, _, _, rfl⟩ | ⟨ax, _, b, rfl, hb, rfl⟩ | ⟨ax, b, rfl, hb, rfl⟩ |
    ⟨_, b, _, _, hb, _, rfl⟩
  · rfl
  · rfl
  · rfl
  all_goals have hne : a ≠ b := fun hab => ha (hab ▸ hb)
  · simp [State.seedAxis_filtOf, hne]
  · simp [State.clearAxis_filtOf, hne]
  · simp [State.setFilt_filtOf, hne]

/-- FV changes only by SEED and CLRFILT, on their axis (R27). -/
theorem exec_fvOf_cases (a : Axis) :
    t.fvOf a = s.fvOf a ∨ (∃ ax rs1, i = .seed ax rs1 ∧ axisOf ax = some a ∧ t.fvOf a = true) ∨
      ∃ ax, i = .clrfilt ax ∧ axisOf ax = some a ∧ t.fvOf a = false := by
  rcases exec_cases h with ⟨_, rfl⟩ | rfl | ⟨_, _, _, rfl⟩ | ⟨ax, rs1, b, rfl, hb, rfl⟩ | ⟨ax, b, rfl, hb, rfl⟩ |
    ⟨_, _, _, _, _, _, rfl⟩
  case inr.inr.inr.inl =>
    by_cases hab : a = b
    · subst hab
      exact .inr (.inl ⟨ax, rs1, rfl, hb, by simp [State.seedAxis_fvOf]⟩)
    · exact .inl (by simp [State.seedAxis_fvOf, hab])
  case inr.inr.inr.inr.inl =>
    by_cases hab : a = b
    · subst hab
      exact .inr (.inr ⟨ax, rfl, hb, by simp [State.clearAxis_fvOf]⟩)
    · exact .inl (by simp [State.clearAxis_fvOf, hab])
  all_goals exact .inl rfl

theorem exec_fvOf_of_ne {a : Axis} (ha : fvWritten i ≠ some a) : t.fvOf a = s.fvOf a := by
  rcases exec_fvOf_cases h a with hfv | ⟨ax, _, rfl, hax, _⟩ | ⟨ax, rfl, hax, _⟩
  · exact hfv
  · exact absurd hax ha
  · exact absurd hax ha

end

theorem code_bounds (e : CmdError) : 1 ≤ e.code.toNat ∧ e.code.toNat ≤ 4 := by
  cases e <;> decide

/-- ERR after a word written to CMD: left alone, or it was 0 and takes the code of an error (R30). -/
theorem runWord_err {w : Word} {s t : State} (h : runWord w s = .next t) :
    t.err = s.err ∨ s.err = 0#3 ∧ ∃ e : CmdError, t.err = e.code := by
  rcases runWord_cases h with ⟨i, _, hi⟩ | ⟨e, hd, rfl⟩
  · exact exec_err hi
  · by_cases h0 : s.err = 0#3
    · exact .inr ⟨h0, .illegalCommand, by simp [h0]⟩
    · exact .inl (recordError_of_ne _ h0)

/-- Settles O31, from the two things a word can do to ERR (`runWord_err`) and the error it raises. -/
theorem errIsWrittenOnlyWhenZero : Obligations.ErrIsWrittenOnlyWhenZero := by
  intro w s t h
  have herr := runWord_err h
  refine ⟨fun h0 => ?_, fun hne => ?_, fun h0 c hc => ?_, fun hle => ?_⟩
  · exact herr.resolve_right fun hz => h0 hz.1
  · obtain ⟨_, e, he⟩ := herr.resolve_left hne
    exact he ▸ code_bounds e
  · rw [runWord_of_wordError hc] at h
    cases h
    simp [h0]
  · rcases herr with he | ⟨_, e, he⟩
    · rwa [he]
    · exact he ▸ (code_bounds e).2

/-- Settles O39, field by field. -/
theorem commandFrame : Obligations.CommandFrame := by
  intro i s t h
  exact ⟨fun _ => exec_reg_of_ne h, fun _ => exec_filtOf_of_ne h, fun _ => exec_fvOf_of_ne h,
    fun h0 => (exec_err h).resolve_right fun hz => h0 hz.1, exec_host h⟩

end Sys2Proof.Laws
end

section
/-! SUPPORT. Every update the machine makes keeps the invariant of the block. -/

namespace Sys2Proof.Laws

open Sys2Proof.Machine Sys2Proof.Safety

/-- The invariant speaks of STATUS and the filter state only. -/
theorem inv_of_eq {s t : State} (h : Inv s) (herr : t.err = s.err) (hlastf : t.lastf = s.lastf)
    (hfilt : t.filt = s.filt) (hfv : t.fv = s.fv) : Inv t := by
  unfold Safety.Inv State.fvOf State.filtOf at *
  rwa [herr, hlastf, hfilt, hfv]

section
variable {s : State} (h : Inv s)
include h

theorem inv_fail (e : CmdError) : Inv (s.fail e) := by
  obtain ⟨herr, _, hfilt⟩ := h
  exact ⟨recordError_le_four e herr, fun _ => recordError_ne_zero s.err e, hfilt⟩

theorem inv_succeed : Inv s.succeed := by
  obtain ⟨herr, _, hfilt⟩ := h
  exact ⟨herr, nofun, hfilt⟩

theorem inv_setReg (r : RegIdx) (v : Word) : Inv (s.setReg r v) := inv_of_eq h rfl rfl rfl rfl

theorem inv_clearStatus : Inv s.clearStatus := by
  obtain ⟨_, _, hfilt⟩ := h
  exact ⟨by simp, by simp, hfilt⟩

theorem inv_seedAxis (a : Axis) (v : Word) : Inv (s.seedAxis a v) := by
  obtain ⟨herr, hlastf, hfilt⟩ := h
  refine ⟨herr, hlastf, fun b hb => ?_⟩
  rw [State.seedAxis_fvOf] at hb
  rw [State.seedAxis_filtOf]
  split_ifs at hb ⊢
  exact hfilt b hb

theorem inv_clearAxis (a : Axis) : Inv (s.clearAxis a) := by
  obtain ⟨herr, hlastf, hfilt⟩ := h
  refine ⟨herr, hlastf, fun b hb => ?_⟩
  rw [State.clearAxis_fvOf] at hb
  rw [State.clearAxis_filtOf]
  split_ifs at hb ⊢
  · rfl
  · exact hfilt b hb

/-- A write of FILT alone keeps the invariant where the axis is seeded already. -/
theorem inv_setFilt {a : Axis} (ha : s.fvOf a = true) (v : Word) : Inv (s.setFilt a v) := by
  obtain ⟨herr, hlastf, hfilt⟩ := h
  refine ⟨herr, hlastf, fun b hb => ?_⟩
  have hne : b ≠ a := by
    rintro rfl
    simp [ha] at hb
  rw [State.setFilt_filtOf, if_neg hne]
  exact hfilt b hb

theorem exec_keeps_inv {i : Instr} {t : State} (hi : exec i s = .next t) : Inv t := by
  rcases exec_cases hi with ⟨e, rfl⟩ | rfl | ⟨rd, v, _, rfl⟩ | ⟨_, rs1, a, _, _, rfl⟩ | ⟨_, a, _, _, rfl⟩ |
    ⟨rd, a, v, _, _, ha, rfl⟩
  · exact inv_fail h e
  · exact inv_succeed h
  · exact inv_succeed (inv_setReg h rd v)
  · exact inv_succeed (inv_seedAxis h a (s.reg rs1))
  · exact inv_succeed (inv_clearAxis h a)
  · exact inv_succeed (inv_setReg (inv_setFilt h ha v) rd v)

theorem runWord_keeps_inv {w : Word} {t : State} (hw : runWord w s = .next t) : Inv t := by
  rcases runWord_cases hw with ⟨i, _, hi⟩ | ⟨_, _, rfl⟩
  · exact exec_keeps_inv h hi
  · exact inv_fail h .illegalCommand

theorem windowWrite_keeps_inv {v : Word} {r : WindowReg} {t : State} (hw : windowWrite v s r = .next t) : Inv t := by
  cases r with
  | cmd => exact runWord_keeps_inv h hw
  | status => cases hw; exact inv_clearStatus h
  | operand r => cases hw; exact inv_setReg h r v
  | filter a => cases hw; exact inv_seedAxis h a v
  | devmap0 | devmap1 | reserved => cases hw; exact h

end

/-- Settles O34: ERR and LASTF are 0 after reset, and every FILT holds the pattern 0. -/
theorem invariantHoldsAtReset : Obligations.InvariantHoldsAtReset :=
  ⟨by decide, nofun, fun a _ => State.reset_filtOf a⟩

/-- Settles O35: case by case over what a step can do (`step_cases`). -/
theorem stepKeepsInvariant : Obligations.StepKeepsInvariant := by
  intro s t h hstep
  rcases step_cases hstep with ⟨_, rfl⟩ | ⟨e, rest, _, ⟨_, rfl⟩ | ⟨_, _, _, _, rfl⟩ | ⟨_, _, _, _, _, hw⟩⟩
  · exact h
  · exact inv_of_eq invariantHoldsAtReset rfl rfl rfl rfl
  · exact inv_of_eq h rfl rfl rfl rfl
  · have hrest : Inv { s with hostIn := rest } := inv_of_eq h rfl rfl rfl rfl
    exact windowWrite_keeps_inv hrest hw

end Sys2Proof.Laws
end

section
/-! SUPPORT. What one access of the host window does to the block (spec 10_state.md R29 to R38, 20_memory.md section 2). -/

namespace Sys2Proof.Laws

open Sys2Proof.Machine Sys2Proof.Safety

/-! ### A step whose event is known -/

/-- A host read at a window offset only hands the host its data. -/
theorem step_hostRead (s : State) (rest : List HostEvent) {off : Nat} (h : off < 256) (h4 : off % 4 = 0) :
    step { s with hostIn := hostRead off :: rest } =
      .next { s with hostIn := rest, hostOut := s.hostOut ++ [windowRead s (windowReg off)] } := by
  rw [step_event rfl, serveEvent_hostRead _ h h4]
  cases windowReg off <;> rfl

theorem step_hostWrite (s : State) (rest : List HostEvent) (v : Word) {off : Nat} (h : off < 256) (h4 : off % 4 = 0) :
    step { s with hostIn := hostWrite off v :: rest } = windowWrite v { s with hostIn := rest } (windowReg off) := by
  rw [step_event rfl, serveEvent_hostWrite _ _ h h4]

theorem step_reset (s : State) (rest : List HostEvent) :
    step { s with hostIn := HostEvent.reset :: rest } =
      .next { State.reset with hostIn := rest, hostOut := s.hostOut } := rfl

/-- Every command completes (60_exceptions.md R220, R232). -/
theorem exec_next (i : Instr) (s : State) : ∃ t, exec i s = .next t := by
  rcases exec_answers i s with ⟨u, hu⟩ | ⟨e, he⟩
  · exact ⟨_, hu⟩
  · exact ⟨_, he⟩

/-- A host write completes and takes nothing from the host's queue. -/
theorem windowWrite_next (v : Word) (s : State) (r : WindowReg) :
    ∃ t, windowWrite v s r = .next t ∧ t.hostIn = s.hostIn := by
  cases r with
  | cmd =>
    cases hd : decode v with
    | error e => exact ⟨_, runWord_of_illegal s hd, rfl⟩
    | ok i =>
      obtain ⟨t, ht⟩ := exec_next i s
      exact ⟨t, (runWord_of_decode s hd).trans ht, (exec_host ht).1⟩
  | status | operand | filter | devmap0 | devmap1 | reserved => exact ⟨_, rfl, rfl⟩

/-- An event the window defines completes and takes nothing more from the host's queue. -/
theorem serveEvent_next {e : HostEvent} (s : State) (h : eventDefined e = true) :
    ∃ t, serveEvent e s = .next t ∧ t.hostIn = s.hostIn := by
  cases e with
  | reset => exact ⟨_, rfl, rfl⟩
  | access a =>
    obtain ⟨off, hoff⟩ := Option.isSome_iff_exists.mp h
    simp only [serveEvent, serveAccess, hoff]
    cases a.kind with
    | read => exact ⟨_, rfl, rfl⟩
    | write v => exact windowWrite_next v s (windowReg off)

/-! ### STATUS, CMD, the device map and reset -/

/-- Settles O32: a read of the STATUS slot gives `statusWord`, a write clears STATUS. -/
theorem statusReadsAndClears : Obligations.StatusReadsAndClears := by
  intro s rest
  exact ⟨⟨s.statusWord, packStatus_toNat .., step_hostRead s rest (by decide) (by decide)⟩,
    fun data => step_hostWrite s rest data (by decide) (by decide)⟩

/-- Settles O33, from what a word written to CMD runs (`step_cmd`). -/
theorem cmdWriteRunsDecodedCommand : Obligations.CmdWriteRunsDecodedCommand := by
  intro s rest w
  refine ⟨fun i hi => ⟨?_, ?_⟩, fun e he => ?_, step_hostRead s rest (by decide) (by decide), step_idle rfl⟩
  · rw [step_cmd rfl, runWord_of_decode _ hi]
  · have hw : BitVec.ofNat 32 (w.toNat % 2 ^ 32) = w := by simp [Nat.mod_eq_of_lt w.isLt]
    rw [State.withFetchWord, hw, step_cmd rfl, runWord_of_decode _ hi]
  · rw [step_cmd rfl, runWord_of_illegal _ he]
    exact congrArg _ (afterFailure_code _ .illegalCommand).symm

/-- Settles O44, from what a read and a write of a window slot do. -/
theorem deviceMapRegistersAreConstant : Obligations.DeviceMapRegistersAreConstant :=
  ⟨rfl, rfl, fun s rest => ⟨step_hostRead s rest (by decide) (by decide), step_hostRead s rest (by decide) (by decide),
    fun v => ⟨step_hostWrite s rest v (by decide) (by decide), step_hostWrite s rest v (by decide) (by decide)⟩⟩⟩

/-- Settles O41: an event the window defines leaves the reset at the head of the queue (`serveEvent_next`). -/
theorem resetZeroesTheBlock : Obligations.ResetZeroesTheBlock := by
  refine ⟨⟨State.reset_reg, fun a => ⟨State.reset_filtOf a, State.reset_fvOf a⟩, rfl, rfl, rfl⟩, fun s rest => ?_⟩
  refine ⟨step_reset s rest, fun e he => ?_⟩
  obtain ⟨u, hu, hin⟩ := serveEvent_next { s with hostIn := HostEvent.reset :: rest } he
  refine ⟨u, by rw [step_event rfl, hu], ?_⟩
  rw [step_event hin]
  rfl

end Sys2Proof.Laws
end

section
/-! SUPPORT. The valid bits: what makes them rise and fall, and what they guard (spec 10_state.md R27). -/

namespace Sys2Proof.Laws

open Sys2Proof.Machine Sys2Proof.Safety

@[simp] theorem axisOf_axisFieldOf (a : Axis) : axisOf (axisFieldOf a) = some a := by
  cases a <;> rfl

theorem axisOf_eq_some {ax : AxisField} {a : Axis} : axisOf ax = some a ↔ ax = axisFieldOf a := by
  cases a <;> revert ax <;> decide

/-- Only offset 0 is CMD. -/
theorem windowReg_eq_cmd {off : Nat} (h : windowReg off = .cmd) : off = 0x00 := by
  unfold windowReg at h
  split_ifs at h
  assumption

/-- Only its own offset of 20_memory.md R52 is FILTa. -/
theorem windowReg_eq_filter {off : Nat} {a : Axis} (h : windowReg off = .filter a) :
    off = 0x28 + 4 * (axisIndex a).val := by
  unfold windowReg at h
  split_ifs at h <;> cases h <;> assumption

/-- FV changes by a host write only at CMD, by a command, and at FILTa, which sets it. -/
theorem windowWrite_fvOf_cases {v : Word} {s t : State} {r : WindowReg} (h : windowWrite v s r = .next t) (a : Axis) :
    t.fvOf a = s.fvOf a ∨ (r = .filter a ∧ t.fvOf a = true) ∨
      (r = .cmd ∧ ∃ i, decode v = .ok i ∧ exec i s = .next t) := by
  cases r with
  | cmd =>
    rcases runWord_cases h with hi | ⟨_, _, rfl⟩
    · exact .inr (.inr ⟨rfl, hi⟩)
    · exact .inl rfl
  | filter b =>
    cases h
    by_cases hab : a = b
    · exact .inr (.inl ⟨by rw [hab], by simp [State.seedAxis_fvOf, hab]⟩)
    · exact .inl (by simp [State.seedAxis_fvOf, hab])
  | status | operand | devmap0 | devmap1 | reserved => cases h; exact .inl rfl

/-- Everything a step can do to FVa: nothing, SEED on a, a window write of FILTa, CLRFILT on a, or reset. -/
theorem step_fvOf_cases {s t : State} (h : step s = .next t) (a : Axis) :
    t.fvOf a = s.fvOf a ∨ ∃ rest,
      (∃ w rs1, s.hostIn = hostWrite 0x00 w :: rest ∧ decode w = .ok (.seed (axisFieldOf a) rs1) ∧ t.fvOf a = true) ∨
      (∃ v, s.hostIn = hostWrite (0x28 + 4 * (axisIndex a).val) v :: rest ∧ t.fvOf a = true) ∨
      (∃ w, s.hostIn = hostWrite 0x00 w :: rest ∧ decode w = .ok (.clrfilt (axisFieldOf a)) ∧ t.fvOf a = false) ∨
      (s.hostIn = HostEvent.reset :: rest ∧ t.fvOf a = false) := by
  rcases step_cases h with
    ⟨_, rfl⟩ | ⟨e, rest, hin, ⟨rfl, rfl⟩ | ⟨_, _, _, _, rfl⟩ | ⟨off, v, _, _, rfl, hw⟩⟩
  · exact .inl rfl
  · exact .inr ⟨rest, .inr (.inr (.inr ⟨hin, State.resetBlock_fvOf _ a⟩))⟩
  · exact .inl rfl
  rcases windowWrite_fvOf_cases hw a with hsame | ⟨hr, hset⟩ | ⟨hr, i, hd, hi⟩
  · exact .inl hsame
  · rw [windowReg_eq_filter hr] at hin
    exact .inr ⟨rest, .inr (.inl ⟨v, hin, hset⟩)⟩
  rw [windowReg_eq_cmd hr] at hin
  rcases exec_fvOf_cases hi a with hsame | ⟨ax, rs1, rfl, hax, hset⟩ | ⟨ax, rfl, hax, hclr⟩
  · exact .inl hsame
  · rw [axisOf_eq_some.mp hax] at hd
    exact .inr ⟨rest, .inl ⟨v, rs1, hin, hd, hset⟩⟩
  · rw [axisOf_eq_some.mp hax] at hd
    exact .inr ⟨rest, .inr (.inr (.inl ⟨v, hin, hd, hclr⟩))⟩

theorem seededError_of_unseeded {s : State} {a : Axis} (h : s.fvOf a = false) :
    seededError s (axisFieldOf a) = some .filterNotSeeded := by
  simp [seededError, h]

/-- Settles O36, from `step_fvOf_cases` and the error the guarded reads raise. -/
theorem validBitChangesOnlyBySeedOrClear : Obligations.ValidBitChangesOnlyBySeedOrClear := by
  refine ⟨fun s t a h => ⟨fun h0 h1 => ?_, fun h1 h0 => ?_⟩, fun s a rd rs1 weight h => ?_⟩
  · rcases step_fvOf_cases h a with hfv | ⟨rest, ⟨w, rs1, hin, hd, _⟩ | ⟨v, hin, _⟩ | ⟨_, _, _, hfv⟩ | ⟨_, hfv⟩⟩
    · simp [hfv, h0] at h1
    · exact ⟨rest, .inl ⟨w, rs1, hin, hd⟩⟩
    · exact ⟨rest, .inr ⟨v, hin⟩⟩
    all_goals simp [hfv] at h1
  · rcases step_fvOf_cases h a with hfv | ⟨rest, ⟨_, _, _, _, hfv⟩ | ⟨_, _, hfv⟩ | ⟨w, hin, hd, _⟩ | ⟨hin, _⟩⟩
    · simp [hfv, h1] at h0
    · simp [hfv] at h0
    · simp [hfv] at h0
    · exact ⟨rest, .inl ⟨w, hin, hd⟩⟩
    · exact ⟨rest, .inr hin⟩
  · have herr := seededError_of_unseeded h
    have hfail : afterFailure s 4#3 = s.fail .filterNotSeeded := afterFailure_code s .filterNotSeeded
    rw [hfail]
    exact ⟨exec_of_errorOf_some (i := .smooth ..) herr, exec_of_errorOf_some (i := .sample ..) herr,
      exec_of_errorOf_some (i := .rdfilt ..) herr⟩

end Sys2Proof.Laws
end

section
/-! SUPPORT. Commands do not see STATUS (spec 10_state.md R25). -/

namespace Sys2Proof.Laws

open Sys2Proof.Machine Sys2Proof.Safety

/-- The state with another STATUS.ERR and STATUS.LASTF. -/
def withStatus (err : BitVec 3) (lastf : Bool) (s : State) : State := { s with err := err, lastf := lastf }

/-- States that agree but for ERR and LASTF are one state with two values of STATUS. -/
theorem eq_withStatus_of_agree {s t : State} (h : AgreeButStatus s t) : t = withStatus t.err t.lastf s := by
  obtain ⟨hregs, hfilt, hfv, hin, hout⟩ := h
  simp [withStatus, hregs, hfilt, hfv, hin, hout]

/-! ### A change of the state a body gives can be made inside the body -/

theorem map_map_body {α : Type} (x : Except CmdError α) (f : α → State) (g : State → State) :
    (x.map f).map g = x.map fun a => g (f a) := by
  cases x <;> rfl

theorem map_withAxis (ax : AxisField) (body : Axis → Except CmdError State) (g : State → State) :
    (withAxis ax body).map g = withAxis ax fun a => (body a).map g := by
  cases h : axisOf ax with
  | none => simp [withAxis_of_none h, Except.map]
  | some a => simp [withAxis_of_some h]

theorem map_withSeeded (s : State) (a : Axis) (body : Word → Except CmdError State) (g : State → State) :
    (withSeeded s a body).map g = withSeeded s a fun y => (body y).map g := by
  cases h : s.fvOf a with
  | false => simp [withSeeded_of_unseeded h, Except.map]
  | true => simp [withSeeded_of_seeded h]

theorem map_withAxis_withSeeded (s : State) (ax : AxisField) (body : Axis → Word → Except CmdError State)
    (g : State → State) :
    (withAxis ax fun a => withSeeded s a (body a)).map g =
      withAxis ax fun a => withSeeded s a fun y => (body a y).map g := by
  simp only [map_withAxis, map_withSeeded]

/-- A command's body reads no STATUS: from another STATUS it does the same and passes that STATUS on. -/
theorem exec_body_passes_status (i : Instr) (s : State) (err : BitVec 3) (lastf : Bool) :
    ∃ body, exec i s = conclude s body ∧
      exec i (withStatus err lastf s) = conclude (withStatus err lastf s) (body.map (withStatus err lastf)) := by
  cases i with
  | nop | li | lih | decrng | decdr | decwk | setfr | setst | setms | merge | ldraw | conv => exact ⟨.ok _, rfl, rfl⟩
  | chkid rs1 =>
    refine ⟨_, rfl, congrArg (conclude _) ?_⟩
    change (if s.byteOf rs1 ≠ expectedDevid then _ else _) = _
    split_ifs <;> rfl
  | encrng | encdr | encwk | setrng | setdr => exact ⟨_, rfl, by rw [map_map_body]; rfl⟩
  | cpwr _ _ _ enable =>
    cases enable with
    | false => exact ⟨.ok _, rfl, rfl⟩
    | true => exact ⟨_, rfl, by rw [if_pos rfl, map_map_body]; rfl⟩
  | seed | clrfilt => exact ⟨_, rfl, by rw [map_withAxis]; rfl⟩
  | rdfilt => exact ⟨_, rfl, by rw [map_withAxis_withSeeded]; rfl⟩
  | smooth | sample => exact ⟨_, rfl, by rw [smoothStep, map_withAxis_withSeeded]; rfl⟩

/-- Settles O37: the two states are one state with two values of STATUS, which the command's body passes on. -/
theorem commandsDoNotReadStatus : Obligations.CommandsDoNotReadStatus := by
  intro i s t h
  rw [eq_withStatus_of_agree h]
  obtain ⟨body, hs, ht⟩ := exec_body_passes_status i s t.err t.lastf
  rw [hs, ht]
  cases body with
  | ok u => exact ⟨_, _, rfl, rfl, ⟨rfl, rfl, rfl, rfl, rfl⟩, rfl⟩
  | error e => exact ⟨_, _, rfl, rfl, ⟨rfl, rfl, rfl, rfl, rfl⟩, rfl⟩

end Sys2Proof.Laws
end

section
/-! SUPPORT. The bits a read-modify-write command owns (spec 10_state.md R49). -/

namespace Sys2Proof.Laws

open Sys2Proof.Machine Sys2Proof.Safety

/-- `new` is `old` in every bit outside `mask`. -/
def KeepsUnowned (mask old new : Byte) : Prop := ∀ j < 8, mask.getLsbD j = false → new.getLsbD j = old.getLsbD j

/-- The shape of every composition of R128 to R134: bits kept of the old value, and bits put in. -/
theorem keepsUnowned_compose {mask keep p : Byte} (v : Byte) (hkeep : ~~~mask &&& keep = ~~~mask)
    (hp : ~~~mask &&& p = 0#8) : KeepsUnowned mask v ((v &&& keep) ||| p) := by
  intro j hj hm
  have hk := congrArg (·.getLsbD j) hkeep
  have h0 := congrArg (·.getLsbD j) hp
  simp only [BitVec.getLsbD_and, BitVec.getLsbD_not, hj, hm, BitVec.getLsbD_zero] at hk h0
  simp_all

theorem encodeRange_owned {g : Word} {p : Byte} (h : encodeRange g = .ok p) : ~~~rangeMask &&& p = 0#8 := by
  unfold encodeRange at h
  split_ifs at h <;> cases h <;> rfl

theorem encodeRate_owned {k : Word} {p : Byte} (h : encodeRate k = .ok p) : ~~~rateMask &&& p = 0#8 := by
  unfold encodeRate at h
  split_ifs at h
  cases h
  generalize k.extractLsb' 0 4 = c
  revert c
  decide

theorem encodeWake_owned {f : Word} {p : Byte} (h : encodeWake f = .ok p) :
    ~~~(autoSleepMask ||| wakeupMask) &&& (0x10#8 ||| p) = 0#8 := by
  unfold encodeWake at h
  split_ifs at h <;> cases h <;> rfl

theorem exists_ok_of_raisedError_none {α : Type} {x : Except CmdError α} (h : raisedError x = none) :
    ∃ a, x = .ok a := by
  cases x with
  | ok a => exact ⟨a, rfl⟩
  | error e => cases h

/-- A read-modify-write command that succeeds writes a byte to its destination, which keeps the bits it does not own. -/
theorem rmw_writes_byte {i : Instr} {rd rs1 : RegIdx} {mask : Byte} {s : State}
    (hi : rmwOwnership i = some (rd, rs1, mask)) (herr : errorOf s i = none) :
    ∃ x : Byte, exec i s = .next (s.setReg rd (zextByte x)).succeed ∧ KeepsUnowned mask (s.byteOf rs1) x := by
  cases i <;> cases hi
  case setrng rs2 =>
    obtain ⟨p, hp⟩ := exists_ok_of_raisedError_none ((raisedError_encodeRange (s.reg rs2)).trans herr)
    exact ⟨_, by simp only [exec, execSetrng, hp]; rfl, keepsUnowned_compose _ rfl (encodeRange_owned hp)⟩
  case setdr rs2 =>
    obtain ⟨p, hp⟩ := exists_ok_of_raisedError_none ((raisedError_encodeRate (s.reg rs2)).trans herr)
    exact ⟨_, by simp only [exec, execSetdr, hp]; rfl, keepsUnowned_compose _ rfl (encodeRate_owned hp)⟩
  case setfr on => exact ⟨_, rfl, keepsUnowned_compose _ rfl (by cases on <;> rfl)⟩
  case setst on => exact ⟨_, rfl, keepsUnowned_compose _ rfl (by cases on <;> rfl)⟩
  case cpwr rs2 enable =>
    cases enable with
    | false => exact ⟨0#8, rfl, fun j hj hm => by interval_cases j <;> cases hm⟩
    | true =>
      obtain ⟨p, hp⟩ := exists_ok_of_raisedError_none ((raisedError_encodeWake (s.reg rs2)).trans herr)
      refine ⟨_, by simp only [exec, execCpwr, hp]; rfl, ?_⟩
      rw [BitVec.or_assoc]
      exact keepsUnowned_compose _ rfl (encodeWake_owned hp)
  case setms =>
    refine ⟨_, rfl, ?_⟩
    have hall : s.byteOf rs1 &&& 0xFF#8 = s.byteOf rs1 := BitVec.and_allOnes
    have hkeep := keepsUnowned_compose (mask := measureMask) (keep := 0xFF#8) (p := 0x08#8) (s.byteOf rs1) rfl rfl
    rwa [hall] at hkeep
  case merge rs2 =>
    refine ⟨_, rfl, keepsUnowned_compose _ BitVec.and_self ?_⟩
    rw [BitVec.and_comm, BitVec.and_assoc]
    simp

/-- Settles O50, from the byte the command writes (`rmw_writes_byte`). -/
theorem rmwCommandsKeepUnownedBits : Obligations.RmwCommandsKeepUnownedBits := by
  refine ⟨fun i rd rs1 mask s hi herr => ?_, fun rd rs1 rs2 s => ⟨_, rfl, ?_⟩⟩
  · obtain ⟨x, hx, hkeep⟩ := rmw_writes_byte hi herr
    refine ⟨_, hx, fun j hj hm => ?_, fun j hj => ?_⟩
    · rw [State.succeed_reg, State.setReg_reg_self, zextByte_getLsbD, hkeep j hj hm, byteOf_getLsbD]
      simp [hj]
    · simpa [zextByte_getLsbD] using BitVec.getLsbD_of_ge x j hj
  · exact State.setReg_reg_self s rd 0#32

end Sys2Proof.Laws
end

section
/-! SUPPORT. What stands at the operand, filter and reserved slots of the host window (spec 20_memory.md R52, R54, R55,
R57). -/

namespace Sys2Proof.Laws

open Sys2Proof.Machine Sys2Proof.Safety

/-- Settles O42: the slot of Ri reads by `State.reg` and is written by `State.setReg`. -/
theorem hostReadsAndWritesOperandRegisters : Obligations.HostReadsAndWritesOperandRegisters := by
  intro s rest i
  have hword : (0x08 + 4 * i.toNat) % 4 = 0 := by omega
  have hin : 0x08 + 4 * i.toNat < 256 := by
    have := i.isLt
    omega
  refine ⟨?_, fun v => ⟨State.setReg { s with hostIn := rest } i v, ?_, fun r => State.setReg_reg _ i r v,
    rfl, rfl, rfl, rfl, rfl, rfl⟩⟩
  · rw [step_hostRead s rest hin hword, windowReg_operand]
    rfl
  · rw [step_hostWrite s rest v hin hword, windowReg_operand]
    rfl

theorem exec_seed_axisFieldOf (a : Axis) (rs1 : RegIdx) (s : State) :
    exec (.seed (axisFieldOf a) rs1) s = .next (s.seedAxis a (s.reg rs1)).succeed := by
  simp [exec, execSeed, withAxis_of_some (axisOf_axisFieldOf a)]

theorem exec_clrfilt_axisFieldOf (a : Axis) (s : State) :
    exec (.clrfilt (axisFieldOf a)) s = .next (s.clearAxis a).succeed := by
  simp [exec, execClrfilt, withAxis_of_some (axisOf_axisFieldOf a)]

/-- Settles O43: the slot of FILTa reads by `State.filtOf` and is written by `State.seedAxis`, SEED's own update. -/
theorem hostReadsAndWritesFilterRegisters : Obligations.HostReadsAndWritesFilterRegisters := by
  intro s rest a
  have hword : (0x28 + 4 * (axisIndex a).val) % 4 = 0 := by omega
  have hin : 0x28 + 4 * (axisIndex a).val < 256 := by
    have : (axisIndex a).val < 3 := (axisIndex a).isLt
    omega
  refine ⟨?_, fun v => ⟨State.seedAxis { s with hostIn := rest } a v, ?_, fun b => ?_, rfl, rfl, rfl, rfl, rfl,
    fun rs1 u hv hu => ?_⟩, State.reset_filtOf a, _, exec_clrfilt_axisFieldOf a s, ?_⟩
  · rw [step_hostRead s rest hin hword, windowReg_filter]
    rfl
  · rw [step_hostWrite s rest v hin hword, windowReg_filter]
    rfl
  · rw [State.seedAxis_filtOf, State.seedAxis_fvOf]
    split_ifs <;> rfl
  · rw [exec_seed_axisFieldOf, hv] at hu
    cases hu
    exact ⟨rfl, rfl⟩
  · simp [State.clearAxis_filtOf]

theorem windowReg_reserved {off : Nat} (h : (0x34 ≤ off ∧ off ≤ 0x3C) ∨ (0x48 ≤ off ∧ off ≤ 0xFC)) :
    windowReg off = .reserved := by
  unfold windowReg
  simp (disch := omega) only [if_neg]

/-- Settles O45, from what stands at a reserved slot. -/
theorem reservedOffsetsReadZeroIgnoreWrites : Obligations.ReservedOffsetsReadZeroIgnoreWrites := by
  intro s rest off hword hoff
  have hin : off < 256 := by omega
  have hslot := windowReg_reserved hoff
  refine ⟨?_, fun v => ?_⟩
  · rw [step_hostRead s rest hin hword, hslot]
    rfl
  · rw [step_hostWrite s rest v hin hword, hslot]
    rfl

end Sys2Proof.Laws
end

section
/-! SUPPORT. Which accesses are served, where the window stands, and that an obedient host is served to the end (spec
20_memory.md R51, R53, R56, R71). -/

namespace Sys2Proof.Laws

open Sys2Proof.Machine Sys2Proof.Safety

theorem step_access_of_undefined {a : HostAccess} (s : State) (rest : List HostEvent) (h : definedOffset a = none) :
    step { s with hostIn := .access a :: rest } = .refused .hostBadAccess := by
  simp [step, serveEvent, serveAccess, h]

/-- An event the window defines completes, and the rest of the queue is still to come. -/
theorem step_next_of_eventDefined {s : State} {e : HostEvent} {rest : List HostEvent} (hin : s.hostIn = e :: rest)
    (he : eventDefined e = true) : ∃ t, step s = .next t ∧ t.hostIn = rest := by
  rw [step_event hin]
  exact serveEvent_next _ he

/-- Settles O46: an access with a window offset completes, one without is refused. -/
theorem undefinedAccessesHaveNoStep : Obligations.UndefinedAccessesHaveNoStep := by
  intro s rest a
  by_cases hok : a.bytes = 4 ∧ a.offset % 4 = 0 ∧ 0 ≤ a.offset ∧ a.offset < 256
  · have hoff : definedOffset a = some a.offset.toNat := definedOffset_eq_some.mpr (by omega)
    obtain ⟨t, ht, -⟩ := step_next_of_eventDefined (s := { s with hostIn := .access a :: rest }) rfl
      (Option.isSome_iff_exists.mpr ⟨_, hoff⟩)
    exact ⟨iff_of_false (by simp [ht]) (not_not_intro hok), iff_of_true ⟨t, ht⟩ hok⟩
  · have hoff : definedOffset a = none := definedOffset_eq_none.mpr (by omega)
    have href := step_access_of_undefined s rest hoff
    exact ⟨iff_of_true href hok, iff_of_false (by simp [href]) hok⟩

/-- Settles O47: the window offset of an access is its distance from HOST_BASE. -/
theorem windowStartsAtHostBase : Obligations.WindowStartsAtHostBase := by
  intro addr off k
  rw [definedOffset_eq_some]
  simp only [accessAt, true_and]
  omega

theorem core_run_succ {s t : State} (k : Nat) (h : step s = .next t) :
    Host.Core.run Sys2Proof.core (k + 1) s = Host.Core.run Sys2Proof.core k t := by
  simp only [Host.Core.run, Sys2Proof.core, h]

/-- As many steps as there are pending events serve them all, if the window defines each. -/
theorem core_run_serves_queue {events : List HostEvent} (hdef : ∀ e ∈ events, eventDefined e = true) {s : State}
    (hin : s.hostIn = events) :
    ∃ t, Host.Core.run Sys2Proof.core events.length s = .next t ∧ t.hostIn = [] := by
  induction events generalizing s with
  | nil => exact ⟨s, rfl, hin⟩
  | cons e rest ih =>
    obtain ⟨he, hrest⟩ := List.forall_mem_cons.mp hdef
    obtain ⟨u, hu, hur⟩ := step_next_of_eventDefined hin he
    rw [List.length_cons, core_run_succ _ hu]
    exact ih hrest hur

/-- Settles O48, by induction on the queue. -/
theorem obedientHostIsServedToTheEnd : Obligations.ObedientHostIsServedToTheEnd :=
  fun _ h => core_run_serves_queue (List.all_eq_true.mp h) rfl

end Sys2Proof.Laws
end

section
/-! SUPPORT. The host's word reads (spec 20_memory.md R61, R63) and their agreement with LDRAW (42_converter.md R170). -/

namespace Sys2Proof.Laws

open Sys2Proof.Machine Sys2Proof.Safety

/-- Two bytes, low byte first, read as two's complement: bit 7 of the high byte is the sign. -/
theorem composeRaw_toInt (lo hi : Byte) :
    (composeRaw lo hi).toInt = (if hi.toNat < 128 then 0 else -65536) + 256 * (hi.toNat : Int) + (lo.toNat : Int) := by
  rw [composeRaw, BitVec.toInt_eq_toNat_cond, append_toNat]
  have hlo := lo.isLt
  split_ifs <;> omega

theorem readWord_ok (lo hi : Byte) : readWord (.ok (lo, hi)) = .ok (composeRaw lo hi).toInt := rfl

theorem byteOf_eq_of_toNat_mod {s : State} {r : RegIdx} {b : Byte} (h : (s.reg r).toNat % 256 = b.toNat) :
    s.byteOf r = b :=
  BitVec.eq_of_toNat_eq ((byteOf_toNat s r).trans h)

/-- `read_axes` succeeds exactly when its three word reads do, with their results. -/
theorem readAxes_eq_ok {x y z : Except BusError (Byte × Byte)} {r : Int × Int × Int} :
    readAxes x y z = .ok r ↔ readWord x = .ok r.1 ∧ readWord y = .ok r.2.1 ∧ readWord z = .ok r.2.2 := by
  unfold readAxes
  cases readWord x with
  | error e => simp
  | ok rx =>
    cases readWord y with
    | error e => simp
    | ok ry =>
      cases readWord z with
      | error e => simp
      | ok rz => simp [Prod.ext_iff]

/-- Settles O59: `read_word` and LDRAW both take the two's complement value of `composeRaw`. -/
theorem readWordIsLittleEndianSigned : Obligations.ReadWordIsLittleEndianSigned := by
  refine ⟨fun lo hi => ?_, fun rd rs1 rs2 s lo hi hlo hhi => ⟨_, rfl, ?_⟩, fun _ _ _ _ => readAxes_eq_ok⟩
  · rw [readWord_ok, composeRaw_toInt]
  · rw [State.succeed_reg, State.setReg_reg_self, sextHalf_toInt, byteOf_eq_of_toNat_mod hlo,
      byteOf_eq_of_toNat_mod hhi, readWord_ok]

end Sys2Proof.Laws
end

section
/-! SUPPORT. The decoder and the encoder are inverse (spec 30_encoding.md R94, R95). -/

namespace Sys2Proof.Laws

open Sys2Proof.Machine Sys2Proof.Safety

/-! ### Decoding an encoded command -/

/-- The encoder puts every command into its own row of the opcode map (R86). -/
theorem encode_meets_row (i : Instr) : TableRow.Statement i := by
  cases i with
  | nop => exact TableRow.nop
  | li => exact TableRow.li ..
  | lih => exact TableRow.lih ..
  | chkid => exact TableRow.chkid ..
  | encrng => exact TableRow.encrng ..
  | decrng => exact TableRow.decrng ..
  | encdr => exact TableRow.encdr ..
  | decdr => exact TableRow.decdr ..
  | encwk => exact TableRow.encwk ..
  | decwk => exact TableRow.decwk ..
  | setrng => exact TableRow.setrng ..
  | setdr => exact TableRow.setdr ..
  | setfr => exact TableRow.setfr ..
  | setst => exact TableRow.setst ..
  | cpwr => exact TableRow.cpwr ..
  | setms => exact TableRow.setms ..
  | merge => exact TableRow.merge ..
  | ldraw => exact TableRow.ldraw ..
  | conv => exact TableRow.conv ..
  | seed => exact TableRow.seed ..
  | smooth => exact TableRow.smooth ..
  | rdfilt => exact TableRow.rdfilt ..
  | clrfilt => exact TableRow.clrfilt ..
  | sample => exact TableRow.sample ..

/-- Every operand is read back from the field the encoder put it in. -/
theorem buildInstr_encode (i : Instr) : buildInstr i.mnemonic (encode i) = i := by
  cases i <;> simp [buildInstr, encode, Instr.mnemonic, imm1Field_eq, imm8Field_eq]

theorem axField_encode {i : Instr} {ax : AxisField} (h : i.axisField? = some ax) : axField (encode i) = ax := by
  cases i with
  | seed | smooth | rdfilt | clrfilt | sample => cases h; simp [encode]
  | _ => cases h

/-- A command is ill-formed exactly when it has an AX operand and it is 3 (R85). -/
theorem not_wellFormed_iff {i : Instr} : ¬ WellFormed i ↔ i.axisField? = some 3#2 := by
  rw [WellFormed, wellFormed]
  cases i.axisField? <;> simp [axisFieldOk]

/-- Settles O1: the word of a command meets its row, and the row's fields give the operands back. -/
theorem decodeOfEncodeIsIdentity : Obligations.DecodeOfEncodeIsIdentity := by
  intro i hwf
  obtain ⟨r, hrow, hmn, hmask, hax⟩ := encode_meets_row i
  have hne : r.usesAx = true → axField (encode i) ≠ 3#2 := by
    intro huses h3
    obtain ⟨ax, hi⟩ := Option.isSome_iff_exists.mp (hax ▸ huses)
    rw [axField_encode hi] at h3
    exact not_wellFormed_iff.mpr (h3 ▸ hi) hwf
  rw [decode_of_row hrow hmask hne, hmn, buildInstr_encode]

/-! ### Encoding a decoded command -/

section
variable (n : Nat)

/-! A field of a literal word, for `simp` to compute. -/

theorem opcField_ofNat : opcField (BitVec.ofNat 32 n) = (BitVec.ofNat 32 n).extractLsb' 27 5 := rfl
theorem rdField_ofNat : rdField (BitVec.ofNat 32 n) = (BitVec.ofNat 32 n).extractLsb' 24 3 := rfl
theorem rs1Field_ofNat : rs1Field (BitVec.ofNat 32 n) = (BitVec.ofNat 32 n).extractLsb' 21 3 := rfl
theorem rs2Field_ofNat : rs2Field (BitVec.ofNat 32 n) = (BitVec.ofNat 32 n).extractLsb' 18 3 := rfl
theorem axField_ofNat : axField (BitVec.ofNat 32 n) = (BitVec.ofNat 32 n).extractLsb' 16 2 := rfl
theorem immField_ofNat : immField (BitVec.ofNat 32 n) = (BitVec.ofNat 32 n).extractLsb' 0 16 := rfl

end

/-- The mask test of IMM in a row that uses IMM1 only (R82). -/
theorem immField_eq_imm1Bits_iff (w : Word) : immField w = imm1Bits (imm1Field w) ↔ immField w &&& 0xFFFE#16 = 0#16 :=
  ⟨fun h => h ▸ TableRow.imm1Bits_mask _, fun h => by rw [imm1Field_eq, imm1Bits_of_mask h]⟩

/-- The mask test of IMM in a row that uses IMM8 only (R82). -/
theorem immField_eq_imm8Bits_iff (w : Word) : immField w = imm8Bits (imm8Field w) ↔ immField w &&& 0xFF00#16 = 0#16 :=
  ⟨fun h => h ▸ TableRow.imm8Bits_mask _, fun h => by rw [imm8Field_eq, imm8Bits_of_mask h]⟩

/-- A row tests exactly the fields that are no operands, and for what the encoder writes there. -/
theorem eq_encode_buildInstr_iff {r : OpcodeRow} (hr : r ∈ opcodeTable) (w : Word) :
    w = encode (buildInstr r.mnemonic w) ↔ w &&& r.mask = r.value := by
  rw [mask_iff_fields, word_eq_iff_fields]
  revert r
  simp [opcodeTable, buildInstr, encode, opcField_ofNat, rdField_ofNat, rs1Field_ofNat, rs2Field_ofNat, axField_ofNat,
    immField_ofNat, immField_eq_imm1Bits_iff, immField_eq_imm8Bits_iff]

theorem axisField?_buildInstr {r : OpcodeRow} (hr : r ∈ opcodeTable) (w : Word) :
    (buildInstr r.mnemonic w).axisField? = if r.usesAx = true then some (axField w) else none := by
  revert r
  simp [opcodeTable, buildInstr, Instr.axisField?]

/-- Settles O2: a decoded word meets its row, and the row leaves only the operand fields free. -/
theorem encodeOfDecodeIsIdentity : Obligations.EncodeOfDecodeIsIdentity := by
  intro w i h
  obtain ⟨r, hrow, hmask, hax, rfl⟩ := decode_ok h
  have hr := (rowOf_some hrow).1
  refine ⟨by_contra fun hwf => ?_, ((eq_encode_buildInstr_iff hr w).mpr hmask).symm⟩
  rw [not_wellFormed_iff, axisField?_buildInstr hr, Option.ite_none_right_eq_some, Option.some.injEq] at hwf
  exact hax hwf.1 hwf.2

/-! ### Commands with AX = 3 -/

theorem errorOf_of_axisThree {i : Instr} (s : State) (h : i.axisField? = some 3#2) :
    errorOf s i = some .illegalCommand := by
  cases i with
  | seed | smooth | rdfilt | clrfilt | sample => cases h; rfl
  | _ => cases h

/-- Settles O40: the command raises ILLEGAL_COMMAND, and whatever decodes is well-formed. -/
theorem illFormedCommandsAreIllegal : Obligations.IllFormedCommandsAreIllegal := fun i s hwf =>
  ⟨exec_of_errorOf_some (errorOf_of_axisThree s (not_wellFormed_iff.mp hwf)),
    fun w h => hwf (encodeOfDecodeIsIdentity w i h).1⟩

/-- Settles O4: each of the words is the encoding of its command. -/
theorem wordsOfTheSpecDecode : Obligations.WordsOfTheSpecDecode :=
  ⟨decodeOfEncodeIsIdentity .nop rfl, decodeOfEncodeIsIdentity (.li 1 0x00E5) rfl,
    decodeOfEncodeIsIdentity (.cpwr 3 1 2 true) rfl, decodeOfEncodeIsIdentity (.ldraw 3 1 2) rfl,
    decodeOfEncodeIsIdentity (.smooth 5 4 1 0x2000) rfl⟩

end Sys2Proof.Laws
end

section
/-! SUPPORT. The illegal words (spec 30_encoding.md R88) are those the decoder rejects. -/

namespace Sys2Proof.Laws

open Sys2Proof.Machine Sys2Proof.Safety

theorem opcField_toNat (w : Word) : (opcField w).toNat = w.toNat / 2 ^ 27 := by
  simp only [opcField, BitVec.extractLsb'_toNat, Nat.shiftRight_eq_div_pow]
  omega

theorem axField_toNat (w : Word) : (axField w).toNat = w.toNat / 2 ^ 16 % 4 := by
  simp only [axField, BitVec.extractLsb'_toNat, Nat.shiftRight_eq_div_pow]

theorem axField_eq_three_iff (w : Word) : axField w = 3#2 ↔ w.toNat / 2 ^ 16 % 4 = 3 := by
  rw [← BitVec.toNat_inj, axField_toNat]
  rfl

theorem opcField_getLsbD (w : Word) {j : Nat} (hj : j < 5) : (opcField w).getLsbD j = w.getLsbD (27 + j) := by
  simp [opcField, hj]

/-- What the decoder rejects of the words with a row. -/
theorem decode_error_iff_of_row {w : Word} {r : OpcodeRow} (hrow : rowOf (opcField w) = some r) :
    (∃ e, decode w = .error e) ↔ w &&& r.mask ≠ r.value ∨ (r.usesAx = true ∧ axField w = 3#2) := by
  simp only [decode, hrow]
  split_ifs with hmask hax
  · simp [hmask]
  · simp [hax]
  · simp [hmask, hax]

/-- A word of a row fails its mask test exactly when a bit below OPC that the opcode does not use is 1 (R82). -/
theorem mask_test_fails_iff {w : Word} {r : OpcodeRow} {fields : List WordField} (hopc : r.opc = opcField w)
    (hmask : ∀ j < 27, r.mask.getLsbD j = fields.all fun f => !(fieldBits f).getLsbD j)
    (hvalue : ∀ j < 27, r.value.getLsbD j = false)
    (htop : ∀ j < 5, r.mask.getLsbD (27 + j) = true ∧ r.value.getLsbD (27 + j) = r.opc.getLsbD j) :
    w &&& r.mask ≠ r.value ↔ ∃ j < 27, w.getLsbD j = true ∧ ∀ f ∈ fields, (fieldBits f).getLsbD j = false := by
  have hbit : ∀ j < 27, (w &&& r.mask).getLsbD j ≠ r.value.getLsbD j ↔
      w.getLsbD j = true ∧ ∀ f ∈ fields, (fieldBits f).getLsbD j = false := by
    intro j hj
    simp [BitVec.getLsbD_and, hmask j hj, hvalue j hj]
  have hopcBit : ∀ j < 32, 27 ≤ j → (w &&& r.mask).getLsbD j = r.value.getLsbD j := by
    intro j hj hle
    obtain ⟨k, rfl⟩ := Nat.exists_eq_add_of_le hle
    obtain ⟨hm, hv⟩ := htop k (by omega)
    rw [BitVec.getLsbD_and, hm, hv, hopc, opcField_getLsbD w (by omega), Bool.and_true]
  constructor
  · intro hne
    by_contra hnone
    refine hne (BitVec.eq_of_getLsbD_eq fun j hj => ?_)
    rcases Nat.lt_or_ge j 27 with hlt | hge
    · exact by_contra fun hb => hnone ⟨j, hlt, (hbit j hlt).mp hb⟩
    · exact hopcBit j hj hge
  · rintro ⟨j, hj, hb⟩ heq
    exact (hbit j hj).mpr hb (heq ▸ rfl)

/-- The decoder rejects exactly the words R88 calls illegal. -/
theorem decode_error_iff_illegal (w : Word) : (∃ e, decode w = .error e) ↔ Illegal w := by
  rw [Illegal, ← opcField_toNat]
  cases hrow : rowOf (opcField w) with
  | none => simp [decode, hrow, usedFields_of_rowOf_none hrow]
  | some r =>
    obtain ⟨hr, hopc⟩ := rowOf_some hrow
    obtain ⟨fields, hfields, hmask, hvalue, htop, hax⟩ := opcodeTable_tests_unused r hr
    rw [decode_error_iff_of_row hrow, mask_test_fails_iff hopc hmask hvalue htop, hax, ← hopc, hfields,
      axField_eq_three_iff, List.contains_iff_mem]

/-- Settles O3: an illegal word is one the decoder rejects, and `runWord` gives every rejected word the same end. -/
theorem illegalWordsAreRejectedAndFail : Obligations.IllegalWordsAreRejectedAndFail := by
  refine fun w s => ⟨decode_error_iff_illegal w, fun hill => ?_⟩
  obtain ⟨e, he⟩ := (decode_error_iff_illegal w).mpr hill
  exact runWord_of_illegal s he

end Sys2Proof.Laws
end

section
/-! SUPPORT. What a command that succeeds has written, in the terms of Safety's `Wrote`; NOP (spec 40_general.md R100) and the
pseudo-instructions (30_encoding.md R93). -/

namespace Sys2Proof.Laws

open Sys2Proof.Machine Sys2Proof.Safety

/-! ### Wrote -/

theorem wrote_succeed (s : State) : Wrote s s.succeed none none :=
  ⟨fun _ => rfl, fun _ => rfl, rfl, rfl, rfl, rfl⟩

theorem wrote_setReg (s : State) (rd : RegIdx) (v : Word) : Wrote s (s.setReg rd v).succeed (some (rd, v)) none :=
  ⟨fun r => State.setReg_reg s rd r v, fun _ => rfl, rfl, rfl, rfl, rfl⟩

/-- Of two writes to one register the second stays. -/
theorem wrote_overwrite {s t u : State} {rd : RegIdx} {v v' : Word} (hst : Wrote s t (some (rd, v)) none)
    (htu : Wrote t u (some (rd, v')) none) : Wrote s u (some (rd, v')) none := by
  obtain ⟨hreg, hfilt, herr, -, hin, hout⟩ := hst
  obtain ⟨hreg', hfilt', herr', hlastf', hin', hout'⟩ := htu
  refine ⟨fun r => ?_, fun a => (hfilt' a).trans (hfilt a), herr'.trans herr, hlastf', hin'.trans hin, hout'.trans hout⟩
  rw [hreg' r]
  by_cases hr : r = rd
  · simp [hr]
  · simp [hr, hreg r]

theorem wrote_reg_self {s t : State} {rd : RegIdx} {v : Word} {filter : Option (Axis × Word × Bool)}
    (h : Wrote s t (some (rd, v)) filter) : t.reg rd = v :=
  (h.1 rd).trans (if_pos rfl)

theorem wrote_reg_of_ne {s t : State} {rd r : RegIdx} {v : Word} {filter : Option (Axis × Word × Bool)}
    (h : Wrote s t (some (rd, v)) filter) (hne : r ≠ rd) : t.reg r = s.reg r :=
  (h.1 r).trans (if_neg hne)

/-! ### NOP -/

/-- The row of OPC 0 tests every bit (R89). -/
theorem decode_opc_zero {w : Word} {i : Instr} (hopc : opcField w = 0#5) (h : decode w = .ok i) : w = 0#32 ∧ i = .nop := by
  obtain ⟨r, hrow, hmask, -, rfl⟩ := decode_ok h
  rw [hopc] at hrow
  cases hrow
  exact ⟨by rwa [show (0xFFFFFFFF#32 : Word) = BitVec.allOnes 32 from rfl, BitVec.and_allOnes] at hmask, rfl⟩

/-- Settles O5: the row of OPC 0 leaves no bit free, and NOP's body is the state itself. -/
theorem nopWord0ChangesOnlyLastf : Obligations.NopWord0ChangesOnlyLastf := by
  refine ⟨fun w i hw => ⟨fun h => decode_opc_zero (BitVec.eq_of_toNat_eq ?_) h, ?_⟩, fun s => ⟨_, rfl, wrote_succeed s⟩⟩
  · rw [opcField_toNat, hw]
    rfl
  · rintro ⟨rfl, rfl⟩
    exact decodeOfEncodeIsIdentity .nop rfl

/-! ### Pseudo-instructions -/

theorem exec_li_wrote (rd : RegIdx) (imm : Half) (s : State) :
    ∃ t, exec (.li rd imm) s = .next t ∧ Wrote s t (some (rd, sextHalf imm)) none :=
  ⟨_, rfl, wrote_setReg ..⟩

theorem exec_lih_wrote (rd : RegIdx) (imm : Half) (s : State) :
    ∃ t, exec (.lih rd imm) s = .next t ∧ Wrote s t (some (rd, imm ++ (s.reg rd).extractLsb' 0 16)) none :=
  ⟨_, rfl, wrote_setReg ..⟩

theorem exec_merge_wrote (rd rs1 rs2 : RegIdx) (mask : Byte) (s : State) :
    ∃ t, exec (.merge rd rs1 rs2 mask) s = .next t ∧
      Wrote s t (some (rd, zextByte (replaceBits (s.byteOf rs1) mask (s.byteOf rs2)))) none :=
  ⟨_, rfl, wrote_setReg ..⟩

/-- A command after another that writes the same register: the pair writes what the second writes. -/
theorem execAll_pair_wrote {i j : Instr} {s t u : State} {rd : RegIdx} {v v' : Word} (hi : exec i s = .next t)
    (hst : Wrote s t (some (rd, v)) none) (hj : exec j t = .next u) (htu : Wrote t u (some (rd, v')) none) :
    execAll [i, j] s = .next u ∧ Wrote s u (some (rd, v')) none :=
  ⟨by simp only [execAll, hi, hj], wrote_overwrite hst htu⟩

/-- Sign extension keeps the half it extends, so LIH finds what LI has loaded. -/
theorem sextHalf_low (h : Half) : (sextHalf h).extractLsb' 0 16 = h := by
  rw [show sextHalf h = h.signExtend 32 from rfl]
  ext j hj
  rw [BitVec.getElem_extractLsb', Nat.zero_add, BitVec.getLsbD_signExtend]
  simp [hj, Nat.lt_trans hj (by decide : 16 < 32)]

/-- A byte merged with itself stays, whatever the mask. -/
theorem replaceBits_self (v mask : Byte) : replaceBits v mask v = v := by
  ext j hj
  cases hm : mask[j] <;> simp [replaceBits, hm]

/-- Over a zero byte, MERGE keeps the bits of the mask. -/
theorem replaceBits_zero (mask new : Byte) : replaceBits 0#8 mask new = new &&& mask := by
  simp [replaceBits]

theorem zextByte_byteOf (s : State) (r : RegIdx) : zextByte (s.byteOf r) = BitVec.ofNat 32 ((s.reg r).toNat % 256) := by
  apply BitVec.eq_of_toNat_eq
  rw [zextByte_toNat, byteOf_toNat, BitVec.toNat_ofNat]
  omega

theorem expandLi32_eq (rd : RegIdx) (v : Word) :
    expandLi32 rd v = [.li rd (BitVec.ofNat 16 v.toNat), .lih rd (BitVec.ofNat 16 (v.toNat / 2 ^ 16))] := by
  simp only [expandLi32, BitVec.extractLsb', Nat.shiftRight_eq_div_pow, pow_zero, Nat.div_one]

theorem li32_effect (rd : RegIdx) (v : Word) (s : State) :
    ∃ t, execAll (expandLi32 rd v) s = .next t ∧ Wrote s t (some (rd, v)) none := by
  obtain ⟨t, hli, hst⟩ := exec_li_wrote rd (v.extractLsb' 0 16) s
  obtain ⟨u, hlih, htu⟩ := exec_lih_wrote rd (v.extractLsb' 16 16) t
  rw [wrote_reg_self hst, sextHalf_low, BitVec.extractLsb'_append_extractLsb'] at htu
  exact ⟨u, execAll_pair_wrote hli hst hlih htu⟩

theorem movb_effect (rd rs : RegIdx) (s : State) :
    ∃ t, execAll (expandMovb rd rs) s = .next t ∧
      Wrote s t (some (rd, BitVec.ofNat 32 ((s.reg rs).toNat % 256))) none := by
  obtain ⟨t, hmerge, hst⟩ := exec_merge_wrote rd rs rs 255#8 s
  rw [replaceBits_self, zextByte_byteOf] at hst
  exact ⟨t, by simp only [expandMovb, execAll, hmerge], hst⟩

/-- EXTB needs its registers to differ: LI would destroy the source (R93). -/
theorem extb_effect {rd rs : RegIdx} (mask : Byte) (s : State) (hne : rd ≠ rs) :
    ∃ t, execAll [.li rd 0#16, .merge rd rd rs mask] s = .next t ∧
      Wrote s t (some (rd, zextByte (s.byteOf rs &&& mask))) none := by
  obtain ⟨t, hli, hst⟩ := exec_li_wrote rd 0#16 s
  obtain ⟨u, hmerge, htu⟩ := exec_merge_wrote rd rd rs mask t
  have hrd : t.byteOf rd = 0#8 := by rw [State.byteOf, wrote_reg_self hst]; rfl
  have hrs : t.byteOf rs = s.byteOf rs := by rw [State.byteOf, wrote_reg_of_ne hst hne.symm]; rfl
  rw [hrd, hrs, replaceBits_zero] at htu
  exact ⟨u, execAll_pair_wrote hli hst hmerge htu⟩

/-- Settles O56: PWROFF and MOVB write once, LI32 and EXTB twice to one register. -/
theorem pseudoInstructionsHaveTheirEffect : Obligations.PseudoInstructionsHaveTheirEffect := by
  intro rd rs v mask s
  refine ⟨⟨expandLi32_eq rd v, li32_effect rd v s⟩, ⟨rfl, _, rfl, wrote_setReg s rd 0#32⟩, ⟨rfl, movb_effect rd rs s⟩, if_pos rfl,
    fun hne => ⟨if_neg hne, ?_⟩⟩
  obtain ⟨t, hrun, hwrote⟩ := extb_effect mask s hne
  refine ⟨t, _, hrun, fun j => ?_, hwrote⟩
  rw [zextByte_getLsbD, BitVec.getLsbD_and, byteOf_getLsbD]

end Sys2Proof.Laws
end

section
/-! SUPPORT. The assembler (spec 30_encoding.md R91, R92): how a decimal weight is rounded, and which words lines yield. -/

namespace Sys2Proof.Laws

open Sys2Proof.Machine Sys2Proof.Safety

/-! ### Weights (R92) -/

/-- `n` is the integer nearest to `num / den`, and of two nearest ones the one further from zero. -/
def IsNearest (num : Int) (den : Nat) (n : Int) : Prop :=
  2 * |n * den - num| ≤ den ∧ (2 * |n * den - num| = den → |num| < |n * den|)

theorem isNearest_neg {num : Int} {den : Nat} {n : Int} (h : IsNearest (-num) den n) : IsNearest num den (-n) := by
  have hdist : |-n * den - num| = |n * den - -num| := by rw [← abs_neg]; ring_nf
  rw [IsNearest, hdist, ← abs_neg num, neg_mul, abs_neg (n * (den : Int))]
  exact h

/-- Half up is away from zero for a number that is not negative. -/
theorem isNearest_of_nonneg {num : Int} {den : Nat} (hden : 0 < den) (hnum : 0 ≤ num) :
    IsNearest num den (floorDiv (2 * num + den) (2 * den)) := by
  rw [floorDiv_eq_div _ (by omega)]
  have hdiv := Int.mul_ediv_add_emod (2 * num + den) (2 * den)
  have hlo := Int.emod_nonneg (2 * num + den) (by omega : (2 * den : Int) ≠ 0)
  have hhi := Int.emod_lt_of_pos (2 * num + den) (by omega : (0 : Int) < 2 * den)
  generalize (2 * num + den) / (2 * den : Int) = q at *
  generalize (2 * num + den) % (2 * den : Int) = m at *
  have hq : 2 * (den : Int) * q = 2 * (q * den) := by ring
  unfold IsNearest
  generalize q * (den : Int) = p at *
  simp only [abs_eq_max_neg]
  omega

theorem nearestAwayFromZero_isNearest (num : Int) {den : Nat} (hden : 0 < den) :
    IsNearest num den (nearestAwayFromZero num den) := by
  unfold nearestAwayFromZero
  split_ifs with hnum
  · exact isNearest_of_nonneg hden hnum
  · exact isNearest_neg (isNearest_of_nonneg hden (by omega))

/-- Settles O57: the pattern of a decimal weight is that of `nearestAwayFromZero`. -/
theorem weightOperandsRoundToNearest : Obligations.WeightOperandsRoundToNearest := by
  refine ⟨fun n => rfl, fun d k => ?_⟩
  obtain ⟨hnear, htie⟩ := nearestAwayFromZero_isNearest (d * 16384) (Nat.pow_pos (n := k) (by decide : 0 < 10))
  push_cast at hnear htie
  exact ⟨_, hnear, htie, rfl⟩

/-! ### Operands of a command as a line writes them (R91) -/

theorem imm16Of_toNat (h : Half) : imm16Of h.toNat = some h := by
  rw [imm16Of, if_pos (by omega), BitVec.ofInt_natCast, BitVec.ofNat_toNat, BitVec.setWidth_eq]

theorem immHighOf_toNat (h : Half) : immHighOf h.toNat = some h := by
  rw [immHighOf, if_pos (by omega), BitVec.ofInt_natCast, BitVec.ofNat_toNat, BitVec.setWidth_eq]

theorem imm8Of_toNat (m : Byte) : imm8Of m.toNat = some m := by
  rw [imm8Of, if_pos (by omega), BitVec.ofInt_natCast, BitVec.ofNat_toNat, BitVec.setWidth_eq]

theorem imm1Of_toNat (b : Bool) : imm1Of b.toNat = some b := by
  cases b <;> rfl

theorem exists_axis_of_wellFormed {i : Instr} {ax : AxisField} (hwf : WellFormed i) (hi : i.axisField? = some ax) :
    ∃ a, axisFieldOf a = ax := by
  obtain ⟨a, ha⟩ := axisOf_isSome_of_ne fun h3 => not_wellFormed_iff.mpr (h3 ▸ hi) hwf
  exact ⟨a, (axisOf_eq_some.mp ha).symm⟩

/-- Every well-formed command has a line. -/
theorem assembleCore_complete {i : Instr} (hwf : WellFormed i) : ∃ ops, assembleCore i.mnemonic ops = some i := by
  cases i with
  | nop => exact ⟨[], rfl⟩
  | li rd imm => exact ⟨[.reg rd, .int imm.toNat], congrArg (Option.map (Instr.li rd)) (imm16Of_toNat imm)⟩
  | lih rd imm => exact ⟨[.reg rd, .int imm.toNat], congrArg (Option.map (Instr.lih rd)) (immHighOf_toNat imm)⟩
  | chkid rs1 => exact ⟨[.reg rs1], rfl⟩
  | encrng rd rs1 | decrng rd rs1 | encdr rd rs1 | decdr rd rs1 | encwk rd rs1 | decwk rd rs1 | setms rd rs1
  | conv rd rs1 => exact ⟨[.reg rd, .reg rs1], rfl⟩
  | setrng rd rs1 rs2 | setdr rd rs1 rs2 | ldraw rd rs1 rs2 => exact ⟨[.reg rd, .reg rs1, .reg rs2], rfl⟩
  | setfr rd rs1 on | setst rd rs1 on =>
    exact ⟨[.reg rd, .reg rs1, .int on.toNat], congrArg (Option.map _) (imm1Of_toNat on)⟩
  | cpwr rd rs1 rs2 enable =>
    exact ⟨[.reg rd, .reg rs1, .reg rs2, .int enable.toNat], congrArg (Option.map _) (imm1Of_toNat enable)⟩
  | merge rd rs1 rs2 mask =>
    exact ⟨[.reg rd, .reg rs1, .reg rs2, .int mask.toNat], congrArg (Option.map _) (imm8Of_toNat mask)⟩
  | seed ax rs1 =>
    obtain ⟨a, rfl⟩ := exists_axis_of_wellFormed hwf rfl
    exact ⟨[.axis a, .reg rs1], rfl⟩
  | smooth rd rs1 ax weight | sample rd rs1 ax weight =>
    obtain ⟨a, rfl⟩ := exists_axis_of_wellFormed hwf rfl
    exact ⟨[.reg rd, .reg rs1, .axis a, .int weight.toNat], congrArg (Option.map _) (imm16Of_toNat weight)⟩
  | rdfilt rd ax =>
    obtain ⟨a, rfl⟩ := exists_axis_of_wellFormed hwf rfl
    exact ⟨[.reg rd, .axis a], rfl⟩
  | clrfilt ax =>
    obtain ⟨a, rfl⟩ := exists_axis_of_wellFormed hwf rfl
    exact ⟨[.axis a], rfl⟩

theorem axisFieldOk_axisFieldOf (a : Axis) : axisFieldOk (axisFieldOf a) = true := by
  cases a <;> rfl

/-- An operand that names an axis is X, Y or Z, so no line yields a command with AX = 3. -/
theorem assembleCore_wellFormed {m : Mnemonic} {ops : List AsmOperand} {i : Instr}
    (h : assembleCore m ops = some i) : WellFormed i := by
  have hall : (assembleCore m ops).all wellFormed = true := by
    unfold assembleCore
    split <;> simp [wellFormed, Instr.axisField?, axisFieldOk_axisFieldOf, Option.all_map]
  rwa [h] at hall

/-- Settles O58: lines yield exactly the well-formed commands, whose words are the decodable ones. -/
theorem assemblerYieldsTheDecodableWords : Obligations.AssemblerYieldsTheDecodableWords := by
  intro w
  constructor
  · rintro ⟨i, hi⟩
    obtain ⟨hwf, hw⟩ := encodeOfDecodeIsIdentity w i hi
    obtain ⟨ops, hops⟩ := assembleCore_complete hwf
    exact ⟨i.mnemonic, ops, i, hops, hw⟩
  · rintro ⟨m, ops, i, hline, rfl⟩
    exact ⟨i, decodeOfEncodeIsIdentity i (assembleCore_wellFormed hline)⟩

end Sys2Proof.Laws
end

section
/-! SUPPORT. Which word decodes to a command, in the terms of Safety's `rawWord` (spec 30_encoding.md R95); LI, LIH and CHKID
(40_general.md R102, R104, R106). -/

namespace Sys2Proof.Laws

open Sys2Proof.Machine Sys2Proof.Safety

/-! ### The word of a command -/

theorem decode_eq_ok_iff {i : Instr} (hwf : WellFormed i) (w : Word) : decode w = .ok i ↔ w = encode i := by
  constructor
  · intro h
    exact (encodeOfDecodeIsIdentity w i h).2.symm
  · rintro rfl
    exact decodeOfEncodeIsIdentity i hwf

/-- The one word of a command is the one R95 writes, where the encoder packs its fields. -/
theorem decode_iff_rawWord {i : Instr} (opc : BitVec 5) {rd rs1 rs2 : RegIdx} {ax : AxisField} {imm : Half}
    (hwf : WellFormed i) (henc : encode i = packWord opc rd rs1 rs2 ax imm) (w : Word) :
    decode w = .ok i ↔ w = rawWord opc.toNat rd rs1 rs2 ax imm := by
  rw [decode_eq_ok_iff hwf, henc, rawWord_eq_packWord]

/-! ### LI and LIH -/

/-- Settles O6: LI writes the sign-extended half. -/
theorem liLoadsSignExtendedImmediate : Obligations.LiLoadsSignExtendedImmediate := by
  intro rd imm s
  obtain ⟨t, hexec, hwrote⟩ := exec_li_wrote rd imm s
  exact ⟨decode_iff_rawWord 0x01#5 rfl rfl, t, _, hexec, sextHalf_toInt imm, hwrote⟩

/-- Settles O7: LIH writes IMM appended to the low half of RD. -/
theorem lihLoadsHighHalf : Obligations.LihLoadsHighHalf := by
  intro rd imm s
  obtain ⟨t, hexec, hwrote⟩ := exec_lih_wrote rd imm s
  refine ⟨decode_iff_rawWord 0x02#5 rfl rfl, t, _, hexec, ?_, hwrote⟩
  rw [append_toNat, BitVec.extractLsb'_toNat, Nat.shiftRight_zero]

/-! ### CHKID -/

/-- CHKID of the expected low byte has no effect but its success (R106). -/
theorem exec_chkid_of_match {s : State} {rs1 : RegIdx} (h : (s.reg rs1).toNat % 256 = 0xE5) :
    exec (.chkid rs1) s = .next s.succeed := by
  have hid : s.byteOf rs1 = expectedDevid := (byteOf_eq_expectedDevid_iff s rs1).mpr h
  simp [exec, execChkid, hid]

/-- Settles O8: the low byte decides between success and IDENTITY_MISMATCH. -/
theorem chkidComparesLowByte : Obligations.ChkidComparesLowByte := by
  intro rs1 s
  refine ⟨decode_iff_rawWord 0x03#5 rfl rfl, fun hmatch => ?_, fun hdiff => ?_⟩
  · exact ⟨_, exec_chkid_of_match hmatch, wrote_succeed s⟩
  · have herr : errorOf s (.chkid rs1) = some .identityMismatch := if_neg hdiff
    exact exec_of_errorOf_some herr

end Sys2Proof.Laws
end

section
/-! SUPPORT. The code tables of the codec (spec 41_codec.md R121 to R127), the commands that encode and decode by them, and
their round trips (R135). -/

namespace Sys2Proof.Laws

open Sys2Proof.Machine Sys2Proof.Safety

/-! ### The tables -/

theorem word_eq_ofNat {x : Word} {n : Nat} (h : x.toNat = n) : x = BitVec.ofNat 32 n := by
  rw [← h, BitVec.ofNat_toNat, BitVec.setWidth_eq]

/-- A code is written to a register as the number it is. -/
theorem zextByte_ofNat {n : Nat} (h : n < 256) : zextByte (BitVec.ofNat 8 n) = BitVec.ofNat 32 n :=
  word_eq_ofNat (by rw [zextByte_toNat, BitVec.toNat_ofNat, Nat.mod_eq_of_lt h])

section
variable {p : Nat × Nat}

theorem rangeCodes_code_lt (hp : p ∈ rangeCodes) : p.2 < 4 := by
  revert p
  decide

theorem wakeCodes_code_lt (hp : p ∈ wakeCodes) : p.2 < 4 := by
  revert p
  decide

theorem encodeRange_of_mem (hp : p ∈ rangeCodes) : encodeRange (BitVec.ofNat 32 p.1) = .ok (BitVec.ofNat 8 p.2) := by
  revert p
  decide

theorem encodeWake_of_mem (hp : p ∈ wakeCodes) : encodeWake (BitVec.ofNat 32 p.1) = .ok (BitVec.ofNat 8 p.2) := by
  revert p
  decide

theorem decodeRange_of_mem (hp : p ∈ rangeCodes) : decodeRange (BitVec.ofNat 32 p.2) = BitVec.ofNat 32 p.1 := by
  revert p
  decide

theorem decodeWake_of_mem (hp : p ∈ wakeCodes) : decodeWake (BitVec.ofNat 32 p.2) = BitVec.ofNat 32 p.1 := by
  revert p
  decide

end

/-- Every pattern of the two-bit range field is a code (R122). -/
theorem exists_rangeCode {n : Nat} (h : n ≤ 3) : ∃ p ∈ rangeCodes, n = p.2 := by
  interval_cases n <;> decide

/-- Every pattern of the two-bit wake field is a code (R127). -/
theorem exists_wakeCode {n : Nat} (h : n ≤ 3) : ∃ p ∈ wakeCodes, n = p.2 := by
  interval_cases n <;> decide

theorem encodeRate_of_le {k : Word} (h : k.toNat ≤ 15) : encodeRate k = .ok (BitVec.ofNat 8 k.toNat) := by
  rw [encodeRate, if_neg (Nat.not_lt.mpr h)]
  congr 1
  apply BitVec.eq_of_toNat_eq
  simp only [BitVec.toNat_setWidth, BitVec.extractLsb'_toNat, BitVec.toNat_ofNat, Nat.shiftRight_zero]
  omega

/-- A word above 3 is none of the patterns of a two-bit field. -/
theorem ne_pattern_of_gt {x : Word} (h : 3 < x.toNat) : x ≠ 0#32 ∧ x ≠ 1#32 ∧ x ≠ 2#32 ∧ x ≠ 3#32 := by
  refine ⟨?_, ?_, ?_, ?_⟩ <;> (rintro rfl; exact absurd h (by decide))

theorem decodeRange_of_gt {x : Word} (h : 3 < x.toNat) : decodeRange x = unrec := by
  obtain ⟨h0, h1, h2, h3⟩ := ne_pattern_of_gt h
  rw [decodeRange, if_neg h0, if_neg h1, if_neg h2, if_neg h3]

theorem decodeWake_of_gt {x : Word} (h : 3 < x.toNat) : decodeWake x = unrec := by
  obtain ⟨h0, h1, h2, h3⟩ := ne_pattern_of_gt h
  rw [decodeWake, if_neg h0, if_neg h1, if_neg h2, if_neg h3]

/-! ### Values outside the domains -/

theorem rangeDomain_of_not_mem {g : Word} (h : ∀ p ∈ rangeCodes, g.toNat ≠ p.1) : rangeDomain g = false := by
  simpa [rangeCodes, rangeDomain] using h

theorem wakeDomain_of_not_mem {f : Word} (h : ∀ p ∈ wakeCodes, f.toNat ≠ p.1) : wakeDomain f = false := by
  simpa [wakeCodes, wakeDomain] using h

theorem rateDomain_of_gt {k : Word} (h : 15 < k.toNat) : rateDomain k = false := by
  simpa [rateDomain] using h

/-- A value outside the domain ends a command with INVALID_CONFIGURATION_VALUE, and only STATUS changes (R120). -/
theorem exec_outside_domain {i : Instr} {s : State} {inDomain : Bool} (herr : errorOf s i = domainError inDomain)
    (h : inDomain = false) : exec i s = .next (afterFailure s 2#3) := by
  subst h
  exact exec_of_errorOf_some herr

/-! ### Commands that write one register -/

/-- The command succeeds from `s` and writes `v` to `rd`, and nothing else. -/
def Writes (i : Instr) (s : State) (rd : RegIdx) (v : Word) : Prop :=
  ∃ t, exec i s = .next t ∧ Wrote s t (some (rd, v)) none

theorem writes_of_body {i : Instr} {s : State} {rd : RegIdx} {v : Word}
    (h : exec i s = conclude s (.ok (s.setReg rd v))) : Writes i s rd v :=
  ⟨_, h, wrote_setReg s rd v⟩

/-- The shape of every command that encodes a semantic value: it writes what it makes of the code. -/
theorem writes_of_code {i : Instr} {s : State} {rd : RegIdx} {code : Except CmdError Byte} {c : Byte} {f : Byte → Word}
    (hc : code = .ok c) (h : exec i s = conclude s (code.map fun p => s.setReg rd (f p))) : Writes i s rd (f c) := by
  subst hc
  exact writes_of_body h

/-- The command writes `y` for the operand `x`, from every state and for every choice of registers. -/
def Maps (op : RegIdx → RegIdx → Instr) (x y : Word) : Prop :=
  ∀ (rd rs1 : RegIdx) (s : State), s.reg rs1 = x → Writes (op rd rs1) s rd y

section
variable {p : Nat × Nat}

theorem encrng_maps (hp : p ∈ rangeCodes) : Maps .encrng (BitVec.ofNat 32 p.1) (BitVec.ofNat 32 p.2) := by
  intro rd rs1 s hs
  rw [← zextByte_ofNat (Nat.lt_trans (rangeCodes_code_lt hp) (by decide))]
  exact writes_of_code (f := zextByte) (encodeRange_of_mem hp) (by rw [← hs]; rfl)

theorem encwk_maps (hp : p ∈ wakeCodes) : Maps .encwk (BitVec.ofNat 32 p.1) (BitVec.ofNat 32 p.2) := by
  intro rd rs1 s hs
  rw [← zextByte_ofNat (Nat.lt_trans (wakeCodes_code_lt hp) (by decide))]
  exact writes_of_code (f := zextByte) (encodeWake_of_mem hp) (by rw [← hs]; rfl)

theorem encdr_maps {k : Word} (h : k.toNat ≤ 15) : Maps .encdr k k := by
  rintro rd rs1 s rfl
  have hk : zextByte (BitVec.ofNat 8 (s.reg rs1).toNat) = s.reg rs1 :=
    (zextByte_ofNat (by omega)).trans (word_eq_ofNat rfl).symm
  rw [← hk]
  exact writes_of_code (f := zextByte) (encodeRate_of_le h) rfl

theorem decrng_maps (x : Word) : Maps .decrng x (decodeRange x) := by
  rintro rd rs1 s rfl
  exact writes_of_body rfl

theorem decwk_maps (x : Word) : Maps .decwk x (decodeWake x) := by
  rintro rd rs1 s rfl
  exact writes_of_body rfl

theorem decdr_maps (x : Word) : Maps .decdr x (decodeRate x) := by
  rintro rd rs1 s rfl
  exact writes_of_body rfl

theorem decrng_maps_code (hp : p ∈ rangeCodes) : Maps .decrng (BitVec.ofNat 32 p.2) (BitVec.ofNat 32 p.1) :=
  decodeRange_of_mem hp ▸ decrng_maps _

theorem decwk_maps_code (hp : p ∈ wakeCodes) : Maps .decwk (BitVec.ofNat 32 p.2) (BitVec.ofNat 32 p.1) :=
  decodeWake_of_mem hp ▸ decwk_maps _

theorem decdr_maps_code {x : Word} (h : x.toNat ≤ 15) : Maps .decdr x x := by
  have hx : decodeRate x = x := if_pos h
  simpa only [hx] using decdr_maps x

theorem decrng_maps_unrec {x : Word} (h : 3 < x.toNat) : Maps .decrng x unrec :=
  decodeRange_of_gt h ▸ decrng_maps x

theorem decwk_maps_unrec {x : Word} (h : 3 < x.toNat) : Maps .decwk x unrec :=
  decodeWake_of_gt h ▸ decwk_maps x

theorem decdr_maps_unrec {x : Word} (h : 15 < x.toNat) : Maps .decdr x unrec := by
  have hx : decodeRate x = unrec := if_neg (Nat.not_le.mpr h)
  exact hx ▸ decdr_maps x

end

/-! ### The encode and decode commands -/

/-- Settles O9: the operand is in the table of R44 or outside the domain. -/
theorem encrngEncodesRangeOrFails : Obligations.EncrngEncodesRangeOrFails := fun rd rs1 s =>
  ⟨decode_iff_rawWord 0x04#5 rfl rfl, fun _ hp hg => encrng_maps hp rd rs1 s (word_eq_ofNat hg),
    fun hout => exec_outside_domain rfl (rangeDomain_of_not_mem hout)⟩

/-- Settles O10: the operand is a code of R44 or above the field. -/
theorem decrngDecodesRangeOrUnrec : Obligations.DecrngDecodesRangeOrUnrec := fun rd rs1 s =>
  ⟨decode_iff_rawWord 0x05#5 rfl rfl, fun _ hp hx => decrng_maps_code hp rd rs1 s (word_eq_ofNat hx),
    fun hgt => decrng_maps_unrec hgt rd rs1 s rfl⟩

/-- Settles O11: an index up to 15 is its own code. -/
theorem encdrEncodesRateOrFails : Obligations.EncdrEncodesRateOrFails := fun rd rs1 s =>
  ⟨decode_iff_rawWord 0x06#5 rfl rfl, fun hle => encdr_maps hle rd rs1 s rfl,
    fun hgt => exec_outside_domain rfl (rateDomain_of_gt hgt)⟩

/-- Settles O12: a pattern of the four-bit field is its own index. -/
theorem decdrDecodesRateOrUnrec : Obligations.DecdrDecodesRateOrUnrec := fun rd rs1 s =>
  ⟨decode_iff_rawWord 0x07#5 rfl rfl, fun hle => decdr_maps_code hle rd rs1 s rfl,
    fun hgt => decdr_maps_unrec hgt rd rs1 s rfl⟩

/-- Settles O13: the operand is in the table of R46 or outside the domain. -/
theorem encwkEncodesWakeOrFails : Obligations.EncwkEncodesWakeOrFails := fun rd rs1 s =>
  ⟨decode_iff_rawWord 0x08#5 rfl rfl, fun _ hp hf => encwk_maps hp rd rs1 s (word_eq_ofNat hf),
    fun hout => exec_outside_domain rfl (wakeDomain_of_not_mem hout)⟩

/-- Settles O14: the operand is a code of R46 or above the field. -/
theorem decwkDecodesWakeOrUnrec : Obligations.DecwkDecodesWakeOrUnrec := fun rd rs1 s =>
  ⟨decode_iff_rawWord 0x09#5 rfl rfl, fun _ hp hx => decwk_maps_code hp rd rs1 s (word_eq_ofNat hx),
    fun hgt => decwk_maps_unrec hgt rd rs1 s rfl⟩

/-! ### Round trips -/

/-- Two commands that map `x` to `y` and `y` to `x`, one after the other, give the operand back. -/
theorem round_trip {op op' : RegIdx → RegIdx → Instr} {x y : Word} (h : Maps op x y) (h' : Maps op' y x)
    (rd rd' : RegIdx) {rs1 : RegIdx} {s : State} (hs : s.reg rs1 = x) :
    ∃ t, execAll [op rd rs1, op' rd' rd] s = .next t ∧ t.reg rd' = s.reg rs1 := by
  obtain ⟨t, ht, hst⟩ := h rd rs1 s hs
  obtain ⟨u, hu, htu⟩ := h' rd' rd t (wrote_reg_self hst)
  exact ⟨u, by simp only [execAll, ht, hu], (wrote_reg_self htu).trans hs.symm⟩

/-- Settles O49: encoding and decoding map each row of a table both ways (`round_trip`). -/
theorem codecRoundTrips : Obligations.CodecRoundTrips := by
  intro rd rd' rs1 s
  refine ⟨?_, fun hle => ?_, fun hle => ⟨?_, ?_⟩, ?_, fun hle => ?_⟩
  · rintro ⟨p, hp, hg⟩
    exact round_trip (encrng_maps hp) (decrng_maps_code hp) rd rd' (word_eq_ofNat hg)
  · obtain ⟨p, hp, hx⟩ := exists_rangeCode hle
    exact round_trip (decrng_maps_code hp) (encrng_maps hp) rd rd' (word_eq_ofNat hx)
  · exact round_trip (encdr_maps hle) (decdr_maps_code hle) rd rd' rfl
  · exact round_trip (decdr_maps_code hle) (encdr_maps hle) rd rd' rfl
  · rintro ⟨p, hp, hf⟩
    exact round_trip (encwk_maps hp) (decwk_maps_code hp) rd rd' (word_eq_ofNat hf)
  · obtain ⟨p, hp, hx⟩ := exists_wakeCode hle
    exact round_trip (decwk_maps_code hp) (encwk_maps hp) rd rd' (word_eq_ofNat hx)

/-! ### UNREC -/

theorem Maps.reg_eq {op : RegIdx → RegIdx → Instr} {x y : Word} (h : Maps op x y) (rd : RegIdx) {rs1 : RegIdx}
    {s : State} (hs : s.reg rs1 = x) : ∃ t, exec (op rd rs1) s = .next t ∧ t.reg rd = y := by
  obtain ⟨t, ht, hwrote⟩ := h rd rs1 s hs
  exact ⟨t, ht, wrote_reg_self hwrote⟩

theorem unrec_outside_domains : rangeDomain unrec = false ∧ rateDomain unrec = false ∧ wakeDomain unrec = false := by
  decide

/-- Settles O54: UNREC is outside the three domains, and the decoders give it for every pattern above their field. -/
theorem unrecIsRejectedByEveryEncoder : Obligations.UnrecIsRejectedByEveryEncoder := by
  refine ⟨fun rd rs1 rs2 s hs => ?_, fun rd rs1 s => ⟨fun hgt => ?_, fun hgt => ?_⟩⟩
  · obtain ⟨hrange, hrate, hwake⟩ := unrec_outside_domains
    rw [← show s.reg rs2 = unrec from hs] at hrange hrate hwake
    simp only [List.forall_mem_cons, List.not_mem_nil, false_implies, implies_true, and_true]
    exact ⟨exec_outside_domain rfl hrange, exec_outside_domain rfl hrate, exec_outside_domain rfl hwake,
      exec_outside_domain rfl hrange, exec_outside_domain rfl hrate, exec_outside_domain rfl hwake⟩
  · simp only [List.forall_mem_cons, List.not_mem_nil, false_implies, implies_true, and_true]
    exact ⟨(decrng_maps_unrec hgt).reg_eq rd rfl, (decwk_maps_unrec hgt).reg_eq rd rfl⟩
  · exact (decdr_maps_unrec hgt).reg_eq rd rfl

end Sys2Proof.Laws
end

section
/-! SUPPORT. The read-modify-write commands (spec 41_codec.md R128 to R134): the byte each composes, as a number or bit
by bit. -/

namespace Sys2Proof.Laws

open Sys2Proof.Machine Sys2Proof.Safety

/-! ### The bytes they compose -/

/-- A byte whose low `k` bits are replaced by a code. -/
theorem composeLow_toNat (v : Byte) {k n : Nat} (hk : k ≤ 8) (hn : n < 2 ^ k) :
    ((v &&& BitVec.allOnes 8 <<< k) ||| BitVec.ofNat 8 n).toNat = v.toNat / 2 ^ k * 2 ^ k + n := by
  have hn8 : n < 2 ^ 8 := Nat.lt_of_lt_of_le hn (Nat.pow_le_pow_right (by decide) hk)
  have hv8 : v.toNat / 2 ^ k * 2 ^ k < 2 ^ 8 := Nat.lt_of_le_of_lt (Nat.div_mul_le_self ..) v.isLt
  rw [← BitVec.shiftLeft_ushiftRight, BitVec.toNat_or, BitVec.toNat_shiftLeft, BitVec.toNat_ushiftRight,
    BitVec.toNat_ofNat, Nat.mod_eq_of_lt hn8, Nat.shiftRight_eq_div_pow, Nat.shiftLeft_eq, Nat.mod_eq_of_lt hv8,
    ← Nat.shiftLeft_eq, ← Nat.shiftLeft_add_eq_or_of_lt hn]

/-- The register value of a composition that replaces the low bits of a register's byte. -/
theorem zextByte_composeLow (s : State) (r : RegIdx) {k n : Nat} (hk : k ≤ 8) (hn : n < 2 ^ k) :
    zextByte ((s.byteOf r &&& BitVec.allOnes 8 <<< k) ||| BitVec.ofNat 8 n) =
      BitVec.ofNat 32 ((s.reg r).toNat % 256 / 2 ^ k * 2 ^ k + n) :=
  word_eq_ofNat (by rw [zextByte_toNat, composeLow_toNat _ hk hn, byteOf_toNat])

theorem replaceBits_getLsbD (old mask new : Byte) (j : Nat) :
    (replaceBits old mask new).getLsbD j = if mask.getLsbD j then new.getLsbD j else old.getLsbD j := by
  simp only [replaceBits, BitVec.getLsbD_or, BitVec.getLsbD_and, BitVec.getLsbD_not]
  by_cases hj : j < 8
  · cases hm : mask.getLsbD j <;> simp [hj]
  · simp [BitVec.getLsbD_of_ge _ j (Nat.not_lt.mp hj)]

theorem bitAt_getLsbD (on : Bool) {pos : Nat} (hpos : pos < 8) (j : Nat) :
    (bitAt on pos).getLsbD j = (decide (j = pos) && on) := by
  simp only [bitAt, BitVec.getLsbD_shiftLeft, BitVec.getLsbD_setWidth, BitVec.getLsbD_ofBool]
  rcases Nat.lt_trichotomy j pos with hlt | rfl | hgt
  · simp [hlt, Nat.ne_of_lt hlt]
  · simp [hpos]
  · simp [Nat.ne_of_gt hgt, Nat.sub_ne_zero_of_lt hgt]

/-- A byte with the bit at `pos` set to `on` (R130, R131). -/
theorem setBit_getLsbD (v : Byte) (on : Bool) {pos : Nat} (hpos : pos < 8) (j : Nat) :
    ((v &&& ~~~BitVec.twoPow 8 pos) ||| bitAt on pos).getLsbD j = if j = pos then on else v.getLsbD j := by
  simp only [BitVec.getLsbD_or, BitVec.getLsbD_and, BitVec.getLsbD_not, BitVec.getLsbD_twoPow, bitAt_getLsbD on hpos]
  by_cases hj : j = pos
  · simp [hj, hpos]
  · by_cases h8 : j < 8
    · simp [hj, Ne.symm hj, h8]
    · simp [hj, BitVec.getLsbD_of_ge v j (Nat.not_lt.mp h8)]

theorem or_twoPow_getLsbD (v : Byte) {pos : Nat} (hpos : pos < 8) (j : Nat) :
    (v ||| BitVec.twoPow 8 pos).getLsbD j = if j = pos then true else v.getLsbD j := by
  rw [BitVec.getLsbD_or, BitVec.getLsbD_twoPow]
  by_cases hj : j = pos
  · simp [hj, hpos]
  · simp [hj, Ne.symm hj]

theorem composeLow_getLsbD (v : Byte) {k n : Nat} (hk : k ≤ 8) (hn : n < 2 ^ k) (j : Nat) :
    ((v &&& BitVec.allOnes 8 <<< k) ||| BitVec.ofNat 8 n).getLsbD j = if j < k then n.testBit j else v.getLsbD j := by
  simp only [BitVec.getLsbD_or, BitVec.getLsbD_and, BitVec.getLsbD_shiftLeft, BitVec.getLsbD_allOnes, BitVec.getLsbD_ofNat]
  by_cases hj : j < k
  · simp [hj, Nat.lt_of_lt_of_le hj hk]
  · have hbit : n.testBit j = false :=
      Nat.testBit_lt_two_pow (Nat.lt_of_lt_of_le hn (Nat.pow_le_pow_right (by decide) (Nat.not_lt.mp hj)))
    by_cases h8 : j < 8
    · simp [hj, hbit, h8, show j - k < 8 by omega]
    · simp [hj, hbit, BitVec.getLsbD_of_ge v j (Nat.not_lt.mp h8)]

/-- The byte of an enabling CPWR: AUTO_SLEEP over a byte whose low two bits are the wake code (R132). -/
theorem powerControl_getLsbD (v : Byte) {n : Nat} (hn : n < 4) (j : Nat) :
    ((v &&& 0xFC#8) ||| 0x10#8 ||| BitVec.ofNat 8 n).getLsbD j =
      if j = 4 then true else if j < 2 then n.testBit j else v.getLsbD j := by
  have hlow : (v &&& 0xFC#8) ||| 0x10#8 ||| BitVec.ofNat 8 n =
      ((v &&& BitVec.allOnes 8 <<< 2) ||| BitVec.ofNat 8 n) ||| BitVec.twoPow 8 4 := by
    rw [BitVec.or_assoc, BitVec.or_comm (0x10#8), ← BitVec.or_assoc]
    rfl
  rw [hlow, or_twoPow_getLsbD _ (by decide), composeLow_getLsbD v (by decide) hn]

/-! ### Their immediate fields -/

theorem imm1Bits_eq_ite (b : Bool) : imm1Bits b = if b then 1 else 0 := by
  cases b <;> rfl

theorem imm8Bits_eq_ofNat (m : Byte) : imm8Bits m = BitVec.ofNat 16 m.toNat :=
  BitVec.eq_of_toNat_eq (by rw [imm8Bits, BitVec.toNat_setWidth, BitVec.toNat_ofNat])

/-! ### Replacing a code -/

/-- Settles O15: the code replaces the low two bits (`zextByte_composeLow`). -/
theorem setrngComposesDataFormat : Obligations.SetrngComposesDataFormat := by
  intro rd rs1 rs2 s
  refine ⟨decode_iff_rawWord 0x0A#5 rfl rfl, fun p hp hg => ?_,
    fun hout => exec_outside_domain rfl (rangeDomain_of_not_mem hout)⟩
  have hcode : encodeRange (s.reg rs2) = .ok (BitVec.ofNat 8 p.2) := word_eq_ofNat hg ▸ encodeRange_of_mem hp
  have hwrites : Writes (.setrng rd rs1 rs2) s rd
      (zextByte ((s.byteOf rs1 &&& BitVec.allOnes 8 <<< 2) ||| BitVec.ofNat 8 p.2)) :=
    writes_of_code (f := fun c => zextByte ((s.byteOf rs1 &&& 0xFC#8) ||| c)) hcode rfl
  rwa [zextByte_composeLow s rs1 (by decide) (rangeCodes_code_lt hp)] at hwrites

/-- Settles O16: the code replaces the low four bits (`zextByte_composeLow`). -/
theorem setdrComposesBwRate : Obligations.SetdrComposesBwRate := by
  intro rd rs1 rs2 s
  refine ⟨decode_iff_rawWord 0x0B#5 rfl rfl, fun hle => ?_, fun hgt => exec_outside_domain rfl (rateDomain_of_gt hgt)⟩
  have hwrites : Writes (.setdr rd rs1 rs2) s rd
      (zextByte ((s.byteOf rs1 &&& BitVec.allOnes 8 <<< 4) ||| BitVec.ofNat 8 (s.reg rs2).toNat)) :=
    writes_of_code (f := fun c => zextByte ((s.byteOf rs1 &&& 0xF0#8) ||| c)) (encodeRate_of_le hle) rfl
  rwa [zextByte_composeLow s rs1 (by decide) (Nat.lt_succ_of_le hle)] at hwrites

/-- Settles O19: enabling composes the byte bit by bit (`powerControl_getLsbD`), disabling checks nothing. -/
theorem cpwrComposesPowerControl : Obligations.CpwrComposesPowerControl := by
  intro rd rs1 rs2 enable s
  refine ⟨decode_iff_rawWord 0x0E#5 rfl (by rw [← imm1Bits_eq_ite]; rfl), ?_, ?_, ?_⟩
  · rintro rfl p hp hf
    have hcode : encodeWake (s.reg rs2) = .ok (BitVec.ofNat 8 p.2) := word_eq_ofNat hf ▸ encodeWake_of_mem hp
    obtain ⟨t, ht, hwrote⟩ : Writes (.cpwr rd rs1 rs2 true) s rd _ :=
      writes_of_code (f := fun c => zextByte ((s.byteOf rs1 &&& 0xFC#8) ||| 0x10#8 ||| c)) hcode rfl
    refine ⟨t, _, ht, fun j => ?_, hwrote⟩
    rw [zextByte_getLsbD, powerControl_getLsbD _ (wakeCodes_code_lt hp), byteOf_getLsbD]
  · rintro rfl hout
    exact exec_outside_domain rfl (wakeDomain_of_not_mem hout)
  · rintro rfl
    exact writes_of_body rfl

/-! ### Setting bits -/

/-- Settles O17: `setBit_getLsbD` at bit 3. -/
theorem setfrSetsBit3ToOn : Obligations.SetfrSetsBit3ToOn := by
  intro rd rs1 on s
  refine ⟨decode_iff_rawWord 0x0C#5 rfl (by rw [← imm1Bits_eq_ite]; rfl), _, _, rfl, fun j => ?_, wrote_setReg ..⟩
  rw [zextByte_getLsbD, show (0xF7#8 : Byte) = ~~~BitVec.twoPow 8 3 from rfl, setBit_getLsbD _ on (by decide),
    byteOf_getLsbD]

/-- Settles O18: `setBit_getLsbD` at bit 7. -/
theorem setstSetsBit7ToOn : Obligations.SetstSetsBit7ToOn := by
  intro rd rs1 on s
  refine ⟨decode_iff_rawWord 0x0D#5 rfl (by rw [← imm1Bits_eq_ite]; rfl), _, _, rfl, fun j => ?_, wrote_setReg ..⟩
  rw [zextByte_getLsbD, show (0x7F#8 : Byte) = ~~~BitVec.twoPow 8 7 from rfl, setBit_getLsbD _ on (by decide),
    byteOf_getLsbD]

/-- Settles O20: `or_twoPow_getLsbD` at bit 3. -/
theorem setmsSetsBit3 : Obligations.SetmsSetsBit3 := by
  intro rd rs1 s
  refine ⟨decode_iff_rawWord 0x0F#5 rfl rfl, _, _, rfl, fun j => ?_, wrote_setReg ..⟩
  rw [zextByte_getLsbD, show (0x08#8 : Byte) = BitVec.twoPow 8 3 from rfl, or_twoPow_getLsbD _ (by decide),
    byteOf_getLsbD]

/-- Settles O21: `replaceBits` takes each bit of the byte from one of the two operands. -/
theorem mergeTakesMaskedBits : Obligations.MergeTakesMaskedBits := by
  intro rd rs1 rs2 mask s
  obtain ⟨t, hexec, hwrote⟩ := exec_merge_wrote rd rs1 rs2 mask s
  refine ⟨decode_iff_rawWord 0x10#5 rfl (by rw [← imm8Bits_eq_ofNat]; rfl), t, _, hexec, fun j => ?_, hwrote⟩
  rw [zextByte_getLsbD, replaceBits_getLsbD, byteOf_getLsbD, byteOf_getLsbD]
  split <;> rfl

end Sys2Proof.Laws
end

section
/-! SUPPORT. LDRAW and CONV (spec 42_converter.md R170, R172) and the laws of the conversion (R173 to R175), all from the two
inequalities of its floor. -/

namespace Sys2Proof.Laws

open Sys2Proof.Machine Sys2Proof.Safety

/-! ### The integer function -/

/-- The floor of R172 meets the inequalities that define it. -/
theorem isConverted_toPhysical (r : Int) : IsConverted r (toPhysical r) := by
  rw [toPhysical_eq]
  constructor <;> omega

/-- A larger sample converts to no smaller value (R175). -/
theorem isConverted_mono {r r' q q' : Int} (h : IsConverted r q) (h' : IsConverted r' q') (hle : r ≤ r') : q ≤ q' := by
  obtain ⟨hlo, -⟩ := h
  obtain ⟨-, hhi'⟩ := h'
  omega

/-- The inequalities have one solution. -/
theorem isConverted_unique {r q q' : Int} (h : IsConverted r q) (h' : IsConverted r q') : q = q' :=
  le_antisymm (isConverted_mono h h' le_rfl) (isConverted_mono h' h le_rfl)

/-- Rounding to nearest with no tie: 625 is odd, so twice the distance is never 625 (R173). -/
theorem isConverted_iff_nearest {r q : Int} : IsConverted r q ↔ 2 * |625 * q - r * 1569064| < 625 := by
  have habs : 2 * |625 * q - r * 1569064| < 625 ↔
      -625 < 2 * (625 * q - r * 1569064) ∧ 2 * (625 * q - r * 1569064) < 625 := by
    rw [← abs_lt, abs_mul, abs_two]
  rw [habs, IsConverted]
  omega

/-- The distance to the nearest value is the same for the negated sample (R175). -/
theorem isConverted_neg {r q : Int} (h : IsConverted r q) : IsConverted (-r) (-q) := by
  rw [isConverted_iff_nearest] at h ⊢
  rwa [show 625 * -q - -r * 1569064 = -(625 * q - r * 1569064) by ring, abs_neg]

theorem toPhysical_mono {r r' : Int} (h : r ≤ r') : toPhysical r ≤ toPhysical r' :=
  isConverted_mono (isConverted_toPhysical r) (isConverted_toPhysical r') h

theorem toPhysical_neg (r : Int) : toPhysical (-r) = -toPhysical r :=
  isConverted_unique (isConverted_toPhysical (-r)) (isConverted_neg (isConverted_toPhysical r))

theorem toPhysical_nearest (r : Int) : 2 * |625 * toPhysical r - r * 1569064| < 625 :=
  isConverted_iff_nearest.mp (isConverted_toPhysical r)

/-- The distance to R171's exact value `r × 980665 / 25600000` in Q16.16, in units of 2^-17: the ratio
`65536 × 980665 / 25600000` is `1569064 / 625` in lowest terms (R173). -/
theorem toPhysical_error (r : Int) :
    |25600000 * toPhysical r - 65536 * (r * 980665)| * 2 ^ 17 ≤ 65536 * 25600000 := by
  have hscale : 25600000 * toPhysical r - 65536 * (r * 980665) = 40960 * (625 * toPhysical r - r * 1569064) := by ring
  have hnear := toPhysical_nearest r
  rw [hscale, abs_mul, abs_of_pos (by decide : (0 : Int) < 40960)]
  omega

/-- The range of the conversion of a 16-bit sample, whose ends are the samples' ends (R174). -/
theorem toPhysical_bounds {r : Int} (hlo : -32768 ≤ r) (hhi : r ≤ 32767) :
    -82264143 ≤ toPhysical r ∧ toPhysical r ≤ 82261632 := by
  have hmin : toPhysical (-32768) = -82264143 := rfl
  have hmax : toPhysical 32767 = 82261632 := rfl
  exact ⟨hmin ▸ toPhysical_mono hlo, hmax ▸ toPhysical_mono hhi⟩

/-! ### The commands -/

theorem rawSample_bounds (v : Word) : -32768 ≤ rawSample v ∧ rawSample v ≤ 32767 :=
  ⟨BitVec.le_toInt _, Int.le_of_lt_add_one (BitVec.toInt_lt (x := v.extractLsb' 0 16))⟩

/-- The conversion of a sample fits a register (R174). -/
theorem toPhysical_rawSample_toInt (v : Word) : (u32 (toPhysical (rawSample v))).toInt = toPhysical (rawSample v) := by
  obtain ⟨hlo, hhi⟩ := rawSample_bounds v
  obtain ⟨hmin, hmax⟩ := toPhysical_bounds hlo hhi
  exact u32_toInt (by omega) (by omega)

theorem conv_writes (rd rs1 : RegIdx) (s : State) :
    Writes (.conv rd rs1) s rd (u32 (toPhysical (rawSample (s.reg rs1)))) :=
  writes_of_body rfl

/-- Settles O22: the two's complement value of `composeRaw`, sign-extended. -/
theorem ldrawComposesSignedSample : Obligations.LdrawComposesSignedSample := by
  intro rd rs1 rs2 s
  refine ⟨decode_iff_rawWord 0x11#5 rfl rfl, _, _, rfl, ?_, wrote_setReg ..⟩
  rw [sextHalf_toInt, composeRaw_toInt, byteOf_toNat, byteOf_toNat]
  push_cast
  rfl

/-- Settles O23: the floor fits the register, so its pattern stands for it. -/
theorem convRoundsToQ16 : Obligations.ConvRoundsToQ16 := by
  intro rd rs1 s
  obtain ⟨t, hexec, hwrote⟩ := conv_writes rd rs1 s
  refine ⟨decode_iff_rawWord 0x12#5 rfl rfl, t, _, hexec, ?_, hwrote⟩
  rw [toPhysical_rawSample_toInt, ← rawSample_eq]
  exact isConverted_toPhysical _

/-- Settles O51: the laws of `toPhysical`, each by its own lemma, and CONV writes it. -/
theorem conversionLaws : Obligations.ConversionLaws := by
  refine ⟨rfl, rfl, toPhysical_nearest, toPhysical_error, fun _ => toPhysical_bounds, toPhysical_neg,
    fun _ _ => toPhysical_mono, fun rd rs1 s => ?_⟩
  obtain ⟨t, hexec, hwrote⟩ := conv_writes rd rs1 s
  refine ⟨t, hexec, ?_⟩
  rw [wrote_reg_self hwrote, toPhysical_rawSample_toInt, rawSample_eq]

end Sys2Proof.Laws
end

section
/-! SUPPORT. The smoothing function (spec 43_filter.md R192, R193) and its laws (R194), all from the two inequalities of its
floor and the bounds of its accumulator. -/

namespace Sys2Proof.Laws

open Sys2Proof.Machine Sys2Proof.Safety

/-! ### The floor -/

theorem clampWeight_eq_weightQ (imm : Half) : clampWeight imm = weightQ imm := by
  unfold clampWeight weightQ
  split_ifs <;> omega

theorem smoothAcc_eq (x y : Int) (imm : Half) : smoothAcc x y imm = x * weightQ imm + y * (16384 - weightQ imm) := by
  rw [smoothAcc, clampWeight_eq_weightQ]

/-- The floor of R193 meets the inequalities that define it. -/
theorem isSmoothed_smoothFx (x y : Int) (imm : Half) : IsSmoothed x y imm (smoothFx x y imm) := by
  rw [smoothFx_eq, IsSmoothed, ← smoothAcc_eq]
  constructor <;> omega

/-- The inequalities have one solution. -/
theorem isSmoothed_unique {x y f f' : Int} {imm : Half} (h : IsSmoothed x y imm f) (h' : IsSmoothed x y imm f') :
    f = f' := by
  obtain ⟨hlo, hhi⟩ := h
  obtain ⟨hlo', hhi'⟩ := h'
  omega

/-! ### The laws -/

/-- Weight 1 lets the sample through (R194 (a)). -/
theorem smoothFx_of_weight_one {imm : Half} (h : weightQ imm = 16384) (x y : Int) : smoothFx x y imm = x :=
  isSmoothed_unique (isSmoothed_smoothFx x y imm) (by rw [IsSmoothed, h]; omega)

/-- Weight 0 keeps the filter state (R194 (b)). -/
theorem smoothFx_of_weight_zero {imm : Half} (h : weightQ imm = 0) (x y : Int) : smoothFx x y imm = y :=
  isSmoothed_unique (isSmoothed_smoothFx x y imm) (by rw [IsSmoothed, h]; omega)

/-- An interval that holds the inputs holds the result (R194 (c), (d)). -/
theorem smoothFx_bounds {x y lo hi : Int} (imm : Half) (hx : lo ≤ x ∧ x ≤ hi) (hy : lo ≤ y ∧ y ≤ hi) :
    lo ≤ smoothFx x y imm ∧ smoothFx x y imm ≤ hi := by
  have hacc := smoothAcc_bounds imm hx hy
  rw [smoothFx_eq]
  omega

/-- Rounding to nearest, halves up (R194 (e)). -/
theorem smoothFx_error (x y : Int) (imm : Half) :
    -8192 ≤ x * weightQ imm + y * (16384 - weightQ imm) - 16384 * smoothFx x y imm ∧
      x * weightQ imm + y * (16384 - weightQ imm) - 16384 * smoothFx x y imm < 8192 := by
  obtain ⟨hlo, hhi⟩ := isSmoothed_smoothFx x y imm
  omega

theorem toInt_bounds (v : Word) : -2147483648 ≤ v.toInt ∧ v.toInt ≤ 2147483647 :=
  ⟨BitVec.le_toInt v, Int.le_of_lt_add_one (BitVec.toInt_lt (x := v))⟩

/-- For 32-bit inputs each product, their sum and the rounded sum fit 48 bits (R193): a product is an accumulator whose
other input is 0. -/
theorem smooth_intermediates_bounds (x y : Word) (imm : Half) :
    ∀ v ∈ [x.toInt * weightQ imm, y.toInt * (16384 - weightQ imm),
      x.toInt * weightQ imm + y.toInt * (16384 - weightQ imm),
      x.toInt * weightQ imm + y.toInt * (16384 - weightQ imm) + 8192], -2 ^ 47 ≤ v ∧ v < (2 ^ 47 : Int) := by
  have hzero : (-2147483648 : Int) ≤ 0 ∧ (0 : Int) ≤ 2147483647 := by decide
  have hleft := smoothAcc_bounds imm (toInt_bounds x) hzero
  have hright := smoothAcc_bounds imm hzero (toInt_bounds y)
  have hsum := smoothAcc_bounds imm (toInt_bounds x) (toInt_bounds y)
  rw [smoothAcc_eq, zero_mul] at hleft hright
  rw [smoothAcc_eq] at hsum
  simp only [List.forall_mem_cons, List.not_mem_nil, false_implies, implies_true, and_true]
  omega

/-- Settles O52: the laws of `smoothFx`, each by its own lemma. -/
theorem smoothingLaws : Obligations.SmoothingLaws := by
  refine ⟨fun x y _ h => smoothFx_of_weight_one h x y, fun x y _ h => smoothFx_of_weight_zero h x y, fun x imm => ?_,
    fun x y imm => ?_, smoothFx_error, smooth_intermediates_bounds⟩
  · obtain ⟨hlo, hhi⟩ := smoothFx_bounds imm (x := x) (y := x) ⟨le_rfl, le_rfl⟩ ⟨le_rfl, le_rfl⟩
    exact le_antisymm hhi hlo
  · exact smoothFx_bounds imm ⟨min_le_left x y, le_max_left x y⟩ ⟨min_le_right x y, le_max_right x y⟩

end Sys2Proof.Laws
end

section
/-! SUPPORT. The commands of the smoothing filter (spec 43_filter.md R190 to R198), and how a session's filter state is
restored (R200). -/

namespace Sys2Proof.Laws

open Sys2Proof.Machine Sys2Proof.Safety

/-! ### Their words -/

theorem wellFormed_of_axisField {i : Instr} {a : Axis} (h : i.axisField? = some (axisFieldOf a)) : WellFormed i := by
  rw [WellFormed, wellFormed, h, Option.all_some]
  exact axisFieldOk_axisFieldOf a

theorem decode_ne_of_axisThree {i : Instr} (h : i.axisField? = some 3#2) (w : Word) : decode w ≠ .ok i :=
  (illFormedCommandsAreIllegal i State.reset (not_wellFormed_iff.mpr h)).2 w

/-! ### What they write -/

theorem wrote_seedAxis (s : State) (a : Axis) (v : Word) : Wrote s (s.seedAxis a v).succeed none (some (a, v, true)) := by
  refine ⟨fun _ => rfl, fun b => ?_, rfl, rfl, rfl, rfl⟩
  rw [State.succeed_filtOf, State.succeed_fvOf, State.seedAxis_filtOf, State.seedAxis_fvOf]
  by_cases hb : b = a <;> simp [hb]

theorem wrote_clearAxis (s : State) (a : Axis) :
    Wrote s (s.clearAxis a).succeed none (some (a, 0#32, false)) := by
  refine ⟨fun _ => rfl, fun b => ?_, rfl, rfl, rfl, rfl⟩
  rw [State.succeed_filtOf, State.succeed_fvOf, State.clearAxis_filtOf, State.clearAxis_fvOf]
  by_cases hb : b = a <;> simp [hb]

/-- FV of a seeded axis stays when its FILT is written. -/
theorem wrote_setFilt_setReg {s : State} {a : Axis} (h : s.fvOf a = true) (rd : RegIdx) (v : Word) :
    Wrote s ((s.setFilt a v).setReg rd v).succeed (some (rd, v)) (some (a, v, true)) := by
  refine ⟨fun r => State.setReg_reg (s.setFilt a v) rd r v, fun b => ?_, rfl, rfl, rfl, rfl⟩
  rw [State.succeed_filtOf, State.succeed_fvOf, State.setReg_filtOf, State.setReg_fvOf, State.setFilt_filtOf,
    State.setFilt_fvOf]
  by_cases hb : b = a <;> simp [hb, h]

/-- Writing what an axis holds already writes nothing. -/
theorem wrote_filter_unchanged {s t : State} {dest : Option (RegIdx × Word)} {a : Axis}
    (h : Wrote s t dest (some (a, s.filtOf a, s.fvOf a))) : Wrote s t dest none := by
  obtain ⟨hreg, hfilter, hrest⟩ := h
  refine ⟨hreg, fun b => (hfilter b).trans ?_, hrest⟩
  by_cases hb : b = a <;> simp [hb]

/-- The step SMOOTH and SAMPLE share, on a seeded axis: the smoothed value of 32-bit inputs fits a register
(R195, R196). -/
theorem smoothStep_effect {s : State} {a : Axis} (h : s.fvOf a = true) (rd : RegIdx) (weight : Half) {x : Int}
    (hx : -2147483648 ≤ x ∧ x ≤ 2147483647) :
    ∃ (t : State) (v : Word), conclude s (smoothStep rd (axisFieldOf a) x weight s) = .next t ∧
      IsSmoothed x (s.filtOf a).toInt weight v.toInt ∧ Wrote s t (some (rd, v)) (some (a, v, true)) := by
  obtain ⟨hlo, hhi⟩ := smoothFx_bounds weight hx (toInt_bounds (s.filtOf a))
  refine ⟨_, u32 (smoothFx x (s32 (s.filtOf a)) weight), ?_, ?_, wrote_setFilt_setReg h rd _⟩
  · rw [smoothStep, withAxis_of_some (axisOf_axisFieldOf a), withSeeded_of_seeded h, conclude_ok]
  · rw [s32, u32_toInt hlo (Int.lt_of_le_sub_one hhi)]
    exact isSmoothed_smoothFx ..

theorem exec_rdfilt_of_seeded {s : State} {a : Axis} (h : s.fvOf a = true) (rd : RegIdx) :
    exec (.rdfilt rd (axisFieldOf a)) s = .next (s.setReg rd (s.filtOf a)).succeed := by
  rw [exec, execRdfilt, withAxis_of_some (axisOf_axisFieldOf a), withSeeded_of_seeded h, conclude_ok]

/-- A command that needs its axis seeded ends with FILTER_NOT_SEEDED on an unseeded one, and only STATUS changes
(R195 to R197). -/
theorem exec_of_unseeded {i : Instr} {s : State} {a : Axis} (herr : errorOf s i = seededError s (axisFieldOf a))
    (h : s.fvOf a = false) : exec i s = .next (afterFailure s 4#3) :=
  exec_of_errorOf_some (herr.trans (seededError_of_unseeded h))

/-! ### The commands -/

/-- Settles O24: SEED's effect is `State.seedAxis`. -/
theorem seedDefinesAxis : Obligations.SeedDefinesAxis := fun a rs1 s =>
  ⟨decode_iff_rawWord 0x13#5 (wellFormed_of_axisField rfl) rfl, decode_ne_of_axisThree rfl, _,
    exec_seed_axisFieldOf a rs1 s, wrote_seedAxis ..⟩

/-- Settles O25: the shared step on the operand itself. -/
theorem smoothFiltersSample : Obligations.SmoothFiltersSample := fun _ rd rs1 weight s =>
  ⟨decode_iff_rawWord 0x14#5 (wellFormed_of_axisField rfl) rfl, decode_ne_of_axisThree rfl,
    fun hseeded => smoothStep_effect hseeded rd weight (toInt_bounds (s.reg rs1)),
    exec_of_unseeded rfl⟩

/-- Settles O26: the shared step on the converted operand, which fits 32 bits (R174). -/
theorem sampleConvertsThenFilters : Obligations.SampleConvertsThenFilters := by
  intro a rd rs1 weight s
  refine ⟨decode_iff_rawWord 0x17#5 (wellFormed_of_axisField rfl) rfl, decode_ne_of_axisThree rfl, fun hseeded => ?_,
    exec_of_unseeded rfl⟩
  have hfits := toInt_bounds (u32 (toPhysical (rawSample (s.reg rs1))))
  rw [toPhysical_rawSample_toInt] at hfits
  obtain ⟨t, v, hexec, hsmoothed, hwrote⟩ := smoothStep_effect hseeded rd weight hfits
  refine ⟨t, _, v, hexec, ?_, hsmoothed, hwrote⟩
  rw [← rawSample_eq]
  exact isConverted_toPhysical _

/-- Settles O27: RDFILT writes `State.filtOf`, which a window read gives too (R55). -/
theorem rdfiltReadsSeededAxis : Obligations.RdfiltReadsSeededAxis := fun a rd s =>
  ⟨decode_iff_rawWord 0x15#5 (wellFormed_of_axisField rfl) rfl, decode_ne_of_axisThree rfl,
    fun hseeded => ⟨_, exec_rdfilt_of_seeded hseeded rd, wrote_setReg ..⟩,
    exec_of_unseeded rfl,
    fun rest => (hostReadsAndWritesFilterRegisters s rest a).1⟩

/-- Settles O28: CLRFILT's effect is `State.clearAxis`, which changes nothing where the invariant has 0 in an unseeded
FILT. -/
theorem clrfiltDiscardsAxis : Obligations.ClrfiltDiscardsAxis := by
  intro a s
  refine ⟨decode_iff_rawWord 0x16#5 (wellFormed_of_axisField rfl) rfl, decode_ne_of_axisThree rfl,
    ⟨_, exec_clrfilt_axisFieldOf a s, wrote_clearAxis s a⟩, fun hinv hunseeded => ?_⟩
  obtain ⟨-, -, hzero⟩ := hinv
  have hwrote := wrote_clearAxis s a
  rw [← hzero a hunseeded, ← hunseeded] at hwrote
  exact ⟨_, exec_clrfilt_axisFieldOf a s, wrote_filter_unchanged hwrote⟩

/-- Settles O55: a window write of FILTa defines the axis (R55), CLRFILT leaves what the invariant has in an unseeded
axis. -/
theorem savedFilterStateIsRestored : Obligations.SavedFilterStateIsRestored := by
  intro s u a rest
  constructor
  · intro hseeded
    obtain ⟨-, hwrite, -⟩ := hostReadsAndWritesFilterRegisters u rest a
    obtain ⟨t, hstep, hfilter, -⟩ := hwrite (s.filtOf a)
    obtain ⟨hfilt, hfv⟩ := Prod.ext_iff.mp ((hfilter a).trans (if_pos rfl))
    exact ⟨t, hstep, hfilt, hfv.trans hseeded.symm⟩
  · rintro ⟨-, -, hzero⟩ hunseeded
    refine ⟨_, exec_clrfilt_axisFieldOf a u, ?_, ?_⟩
    · simp [State.clearAxis_filtOf, hzero a hunseeded]
    · simp [State.clearAxis_fvOf, hunseeded]

end Sys2Proof.Laws
end

section
/-! SUPPORT. A command neither reads nor writes the filter state of an axis it does not name (spec 43_filter.md R199). -/

namespace Sys2Proof.Laws

open Sys2Proof.Machine Sys2Proof.Safety

/-- The state with another FILT and FV on one axis. -/
def withFilter (b : Axis) (v : Word) (valid : Bool) (s : State) : State := (s.setFilt b v).setFv b valid

theorem withFilter_filtOf_of_ne {a b : Axis} (h : a ≠ b) (v : Word) (valid : Bool) (s : State) :
    (withFilter b v valid s).filtOf a = s.filtOf a := by
  simp [withFilter, State.setFilt_filtOf, h]

theorem withFilter_fvOf_of_ne {a b : Axis} (h : a ≠ b) (v : Word) (valid : Bool) (s : State) :
    (withFilter b v valid s).fvOf a = s.fvOf a := by
  simp [withFilter, State.setFv_fvOf, h]

theorem agreeButAxis_withFilter (b : Axis) (v : Word) (valid : Bool) (s : State) :
    AgreeButAxis b s (withFilter b v valid s) :=
  ⟨rfl, rfl, rfl, rfl, rfl, fun _ h => ⟨(withFilter_filtOf_of_ne h ..).symm, (withFilter_fvOf_of_ne h ..).symm⟩⟩

/-- States that agree but for the filter state of `b` are one state with two filter states on `b`. -/
theorem exists_withFilter_of_agree {b : Axis} {s t : State} (h : AgreeButAxis b s t) :
    ∃ v valid, t = withFilter b v valid s := by
  obtain ⟨hregs, herr, hlastf, hin, hout, hother⟩ := h
  refine ⟨t.filtOf b, t.fvOf b, ?_⟩
  have hfilt : t.filt = (withFilter b (t.filtOf b) (t.fvOf b) s).filt := State.filt_eq_of_filtOf fun a => by
    by_cases hab : a = b
    · simp [withFilter, hab]
    · rw [withFilter_filtOf_of_ne hab, (hother a hab).1]
  have hfv : t.fv = (withFilter b (t.filtOf b) (t.fvOf b) s).fv := State.fv_eq_of_fvOf fun a => by
    by_cases hab : a = b
    · simp [withFilter, hab]
    · rw [withFilter_fvOf_of_ne hab, (hother a hab).2]
  calc t = { s with filt := t.filt, fv := t.fv } := by simp [hregs, herr, hlastf, hin, hout]
    _ = withFilter b (t.filtOf b) (t.fvOf b) s := by rw [hfilt, hfv]; rfl

/-! ### Updates of another axis -/

theorem withFilter_setFilt {a b : Axis} (h : a ≠ b) (v x : Word) (valid : Bool) (s : State) :
    (withFilter b v valid s).setFilt a x = withFilter b v valid (s.setFilt a x) := by
  have hne : (axisIndex b).val ≠ (axisIndex a).val := fun e => h (axisIndex_injective (Fin.ext e.symm))
  simp only [withFilter, State.setFilt, State.setFv, Vector.set_comm _ _ hne]

theorem withFilter_setFv {a b : Axis} (h : a ≠ b) (v : Word) (valid x : Bool) (s : State) :
    (withFilter b v valid s).setFv a x = withFilter b v valid (s.setFv a x) := by
  have hne : (axisIndex b).val ≠ (axisIndex a).val := fun e => h (axisIndex_injective (Fin.ext e.symm))
  simp only [withFilter, State.setFilt, State.setFv, Vector.set_comm _ _ hne]

theorem withFilter_seedAxis {a b : Axis} (h : a ≠ b) (v x : Word) (valid : Bool) (s : State) :
    (withFilter b v valid s).seedAxis a x = withFilter b v valid (s.seedAxis a x) := by
  rw [State.seedAxis, State.seedAxis, withFilter_setFilt h, withFilter_setFv h]

theorem withFilter_clearAxis {a b : Axis} (h : a ≠ b) (v : Word) (valid : Bool) (s : State) :
    (withFilter b v valid s).clearAxis a = withFilter b v valid (s.clearAxis a) := by
  rw [State.clearAxis, State.clearAxis, withFilter_setFilt h, withFilter_setFv h]

/-! ### Bodies -/

section
variable {b : Axis} {v : Word} {valid : Bool}

theorem withAxis_passes_filter {ax : AxisField} (hax : some ax ≠ some (axisFieldOf b))
    {body body' : Axis → Except CmdError State} (h : ∀ a, a ≠ b → body' a = (body a).map (withFilter b v valid)) :
    withAxis ax body' = (withAxis ax body).map (withFilter b v valid) := by
  rw [map_withAxis]
  cases ha : axisOf ax with
  | none => rw [withAxis_of_none ha, withAxis_of_none ha]
  | some a =>
    have hne : a ≠ b := fun hab => hax (hab ▸ congrArg some (axisOf_eq_some.mp ha))
    rw [withAxis_of_some ha, withAxis_of_some ha, h a hne]

theorem withSeeded_passes_filter {a : Axis} (ha : a ≠ b) {s : State} {body body' : Word → Except CmdError State}
    (h : ∀ y, body' y = (body y).map (withFilter b v valid)) :
    withSeeded (withFilter b v valid s) a body' = (withSeeded s a body).map (withFilter b v valid) := by
  rw [map_withSeeded]
  simp only [withSeeded, withFilter_fvOf_of_ne ha, withFilter_filtOf_of_ne ha, h]

theorem smoothStep_passes_filter {ax : AxisField} (hax : some ax ≠ some (axisFieldOf b)) (rd : RegIdx) (x : Int)
    (weight : Half) (s : State) :
    smoothStep rd ax x weight (withFilter b v valid s) =
      (smoothStep rd ax x weight s).map (withFilter b v valid) :=
  withAxis_passes_filter hax fun _ ha => withSeeded_passes_filter ha fun _ => by rw [withFilter_setFilt ha]; rfl

end

/-- A command's body does not read the filter state of an axis it does not name: from another one it does the same and
passes it on. -/
theorem exec_body_passes_filter {b : Axis} {i : Instr} (hi : i.axisField? ≠ some (axisFieldOf b)) (v : Word)
    (valid : Bool) (s : State) :
    ∃ body, exec i s = conclude s body ∧
      exec i (withFilter b v valid s) = conclude (withFilter b v valid s) (body.map (withFilter b v valid)) := by
  cases i with
  | nop | li | lih | decrng | decdr | decwk | setfr | setst | setms | merge | ldraw | conv => exact ⟨.ok _, rfl, rfl⟩
  | chkid rs1 =>
    refine ⟨_, rfl, congrArg (conclude _) ?_⟩
    change (if s.byteOf rs1 ≠ expectedDevid then _ else _) = _
    split_ifs <;> rfl
  | encrng | encdr | encwk | setrng | setdr => exact ⟨_, rfl, by rw [map_map_body]; rfl⟩
  | cpwr _ _ _ enable =>
    cases enable with
    | false => exact ⟨.ok _, rfl, rfl⟩
    | true => exact ⟨_, rfl, by rw [if_pos rfl, map_map_body]; rfl⟩
  | seed _ rs1 =>
    exact ⟨_, rfl, congrArg (conclude _) <|
      withAxis_passes_filter hi fun _ ha => congrArg Except.ok (withFilter_seedAxis ha ..)⟩
  | clrfilt =>
    exact ⟨_, rfl, congrArg (conclude _) <|
      withAxis_passes_filter hi fun _ ha => congrArg Except.ok (withFilter_clearAxis ha ..)⟩
  | rdfilt =>
    exact ⟨_, rfl, congrArg (conclude _) <|
      withAxis_passes_filter hi fun _ ha => withSeeded_passes_filter ha fun _ => rfl⟩
  | smooth | sample => exact ⟨_, rfl, congrArg (conclude _) (smoothStep_passes_filter hi ..)⟩

/-! ### The frame -/

/-- A command writes the filter state of the axis it names, if any. -/
theorem axisField?_of_written {i : Instr} {a : Axis} (h : filtWritten i = some a ∨ fvWritten i = some a) :
    i.axisField? = some (axisFieldOf a) := by
  cases i with
  | seed | clrfilt => exact congrArg some (axisOf_eq_some.mp (or_self_iff.mp h))
  | smooth | sample => exact congrArg some (axisOf_eq_some.mp (h.resolve_right nofun))
  | _ => rcases h with h | h <;> cases h

/-- Settles O38: the two states are one state with two filter states on `b`, which the command's body passes on. -/
theorem axesAreIndependent : Obligations.AxesAreIndependent := by
  intro b i s t hi hagree
  obtain ⟨v, valid, rfl⟩ := exists_withFilter_of_agree hagree
  obtain ⟨body, hs, ht⟩ := exec_body_passes_filter hi v valid s
  obtain ⟨s', hs'⟩ := exec_next i s
  have hfilt := exec_filtOf_of_ne hs' fun h => hi (axisField?_of_written (.inl h))
  have hfv := exec_fvOf_of_ne hs' fun h => hi (axisField?_of_written (.inr h))
  refine ⟨s', withFilter b v valid s', hs', ?_, agreeButAxis_withFilter .., hfilt, hfv⟩
  rw [hs] at hs'
  rw [ht]
  rcases conclude_cases hs' with ⟨u, rfl, rfl⟩ | ⟨e, rfl, rfl⟩ <;> rfl

end Sys2Proof.Laws
end

section
/-! SUPPORT. What a word written to CMD does to STATUS, and that a failed one does nothing else (spec 60_exceptions.md R230,
R231). -/

namespace Sys2Proof.Laws

open Sys2Proof.Machine Sys2Proof.Safety

/-- A command fails, or it clears LASTF and keeps ERR. -/
theorem exec_status_cases {i : Instr} {s t : State} (h : exec i s = .next t) :
    (∃ e, t = s.fail e) ∨ t.lastf = false ∧ t.err = s.err := by
  rcases exec_cases h with hfail | rfl | ⟨_, _, _, rfl⟩ | ⟨_, _, _, _, _, rfl⟩ | ⟨_, _, _, _, rfl⟩ |
    ⟨_, _, _, _, _, _, rfl⟩
  case inl => exact .inl hfail
  all_goals exact .inr ⟨rfl, rfl⟩

/-- A command that raises no error ends by `State.succeed`, so it is not the failure of `exec_status_cases`. -/
theorem exec_of_errorOf_none {i : Instr} {s : State} (h : errorOf s i = none) :
    ∃ t, exec i s = .next t ∧ t.lastf = false ∧ t.err = s.err := by
  obtain ⟨body, hexec, hraised⟩ := exec_raises_errorOf i s
  obtain ⟨u, rfl⟩ := exists_ok_of_raisedError_none (hraised.trans h)
  refine ⟨u.succeed, hexec, (exec_status_cases hexec).resolve_left ?_⟩
  rintro ⟨e, hfail⟩
  exact absurd (congrArg State.lastf hfail) (by simp)

theorem wordError_of_decode {w : Word} {i : Instr} (s : State) (h : decode w = .ok i) : wordError s w = errorOf s i := by
  simp [wordError, h]

theorem wordError_of_illegal {w : Word} {e : DecodeError} (s : State) (h : decode w = .error e) :
    wordError s w = some .illegalCommand := by
  simp [wordError, h]

theorem runWord_of_wordError_none {w : Word} {s : State} (h : wordError s w = none) :
    ∃ t, runWord w s = .next t ∧ t.lastf = false ∧ t.err = s.err := by
  cases hd : decode w with
  | error e => simp [wordError_of_illegal s hd] at h
  | ok i =>
    rw [runWord_of_decode s hd]
    exact exec_of_errorOf_none (wordError_of_decode s hd ▸ h)

/-- Settles O29: a word that raises no error keeps ERR, one that raises an error leaves `State.fail`. -/
theorem everyCommandUpdatesStatus : Obligations.EveryCommandUpdatesStatus := by
  intro w s
  cases hw : wordError s w with
  | none =>
    obtain ⟨t, hrun, hstatus⟩ := runWord_of_wordError_none hw
    exact ⟨t, hrun, fun _ => hstatus, nofun⟩
  | some e =>
    refine ⟨s.fail e, runWord_of_wordError hw, nofun, ?_⟩
    rintro _ ⟨⟩
    exact ⟨rfl, rfl⟩

/-- Settles O30: a word that raises an error leaves `State.fail`, which updates STATUS only. -/
theorem failedCommandChangesOnlyStatus : Obligations.FailedCommandChangesOnlyStatus := fun _ s c h =>
  ⟨s.fail c, runWord_of_wordError h, s.fail_regs c, s.fail_filt c, s.fail_fv c, s.fail_hostIn c, s.fail_hostOut c⟩

end Sys2Proof.Laws
end

section
/-! SUPPORT. The ends of the weight range (spec 70_reset_and_hazards.md R277, R278): weight 0 freezes the filter, weight 1
passes the sample. -/

namespace Sys2Proof.Laws

open Sys2Proof.Machine Sys2Proof.Safety

/-- Every immediate that is not positive clamps to weight 0 (R192). -/
theorem weightQ_of_nonpos {weight : Half} (h : weight.toInt ≤ 0) : weightQ weight = 0 := by
  rw [weightQ]
  omega

/-- Every immediate from 0x4000 up clamps to weight 1 (R192). -/
theorem weightQ_of_one_le {weight : Half} (h : 16384 ≤ weight.toInt) : weightQ weight = 16384 := by
  rw [weightQ]
  omega

/-- CONV's result fits a register, so SAMPLE smooths the very word that CONV writes (R196). -/
theorem exec_sample_eq (rd rs1 : RegIdx) (ax : AxisField) (weight : Half) (s : State) :
    exec (.sample rd rs1 ax weight) s =
      conclude s (smoothStep rd ax (u32 (toPhysical (rawSample (s.reg rs1)))).toInt weight s) := by
  rw [toPhysical_rawSample_toInt]
  rfl

section
variable {s : State} {a : Axis} {weight : Half}

/-- A word that represents the smoothed value is the word written: a register holds each value in one way only. -/
theorem smoothStep_writes {x v : Word} (hseeded : s.fvOf a = true) (rd : RegIdx)
    (hv : smoothFx x.toInt (s.filtOf a).toInt weight = v.toInt) :
    ∃ t, conclude s (smoothStep rd (axisFieldOf a) x.toInt weight s) = .next t ∧
      Wrote s t (some (rd, v)) (some (a, v, true)) := by
  obtain ⟨t, v', hexec, hsmoothed, hwrote⟩ := smoothStep_effect hseeded rd weight (toInt_bounds x)
  have hsame : v'.toInt = v.toInt := (isSmoothed_unique hsmoothed (isSmoothed_smoothFx ..)).trans hv
  rw [BitVec.eq_of_toInt_eq hsame] at hwrote
  exact ⟨t, hexec, hwrote⟩

theorem smoothStep_freezes (hseeded : s.fvOf a = true) (hweight : weight.toInt ≤ 0) (rd : RegIdx) (x : Word) :
    ∃ t, conclude s (smoothStep rd (axisFieldOf a) x.toInt weight s) = .next t ∧
      Wrote s t (some (rd, s.filtOf a)) (some (a, s.filtOf a, true)) :=
  smoothStep_writes hseeded rd (smoothFx_of_weight_zero (weightQ_of_nonpos hweight) ..)

theorem smoothStep_passes_sample (hseeded : s.fvOf a = true) (hweight : 16384 ≤ weight.toInt) (rd : RegIdx) (x : Word) :
    ∃ t, conclude s (smoothStep rd (axisFieldOf a) x.toInt weight s) = .next t ∧
      Wrote s t (some (rd, x)) (some (a, x, true)) :=
  smoothStep_writes hseeded rd (smoothFx_of_weight_one (weightQ_of_one_le hweight) ..)

end

/-- Settles O53: the shared step freezes or passes the word it is given, which is the operand for SMOOTH and what CONV
writes for SAMPLE. -/
theorem extremeWeightsFreezeOrPass : Obligations.ExtremeWeightsFreezeOrPass := by
  intro a rd rs1 weight s hseeded
  rw [exec_sample_eq]
  refine ⟨fun hzero => ⟨smoothStep_freezes hseeded hzero rd _, smoothStep_freezes hseeded hzero rd _⟩,
    fun hone => ⟨smoothStep_passes_sample hseeded hone rd _, ?_⟩⟩
  obtain ⟨u, hconv, hwrote⟩ := conv_writes rd rs1 s
  obtain ⟨t, hsample, hpassed⟩ := smoothStep_passes_sample hseeded hone rd (u32 (toPhysical (rawSample (s.reg rs1))))
  rw [← wrote_reg_self hwrote] at hpassed
  exact ⟨t, u, hsample, hconv, hpassed⟩

end Sys2Proof.Laws
end
